-- ==== Sys2Proof/Word.lean ====
section
/-! DEFINITION. The word types of the core: every value the spec treats as bits, at the one width it has. -/

namespace Sys2Proof

/-- The content of a register (R7) and of a memory byte (R8). -/
abbrev Byte := BitVec 8

/-- One instruction word, the "opcode" (R9, R17). -/
abbrev Opcode := BitVec 16

/-- The program counter, 13 bits (R10). -/
abbrev Pc := BitVec 13

/-- A memory address as the host gives it, 12 bits (R8, R48). -/
abbrev Addr := BitVec 12

/-- One of the four fields of an opcode (R61). -/
abbrev Nibble := BitVec 4

/-- The STATUS word the host reads (R34). -/
abbrev StatusWord := BitVec 32

/-- A register's index, 0 to 15 (R6, R20): "guaranteed by the 4-bit decode, so never out of range" (R62). -/
abbrev RegIdx := Fin 16

end Sys2Proof
end

