-- ==== Sys2Proof/Machine/Flags.lean ====
section
/-! DEFINITION. The adder of the ALU and the carry flag it computes (41_alu.md section 1). -/

namespace Sys2Proof.Machine

/-- `s <- zext_9(a) + zext_9(b)` (R103): the exact sum, with no carry-in (R100). -/
def exactSum (a b : Byte) : BitVec 9 := a.setWidth 9 + b.setWidth 9

/-- `s[7:0]`, the wrapped sum (R101, R103). -/
def sumByte (t : BitVec 9) : Byte := t.extractLsb' 0 8

/-- `zext_8(s[8])`, the carry flag: 0x01 when the exact sum is greater than 255, else 0x00 (R103, R104). -/
def carryByte (t : BitVec 9) : Byte := (t.extractLsb' 8 1).setWidth 8

end Sys2Proof.Machine
end

