-- ==== Sys2Proof/Syntax.lean ====
section
/-! DEFINITION. The instructions of the core: one constructor per row of spec/opcode_table.json (R65). -/

namespace Sys2Proof

/-- The instruction set (R2, R65): HALT and ADD and nothing else. -/
inductive Instr where
  /-- `HALT`, the word 0x0000 (R88). -/
  | halt
  /-- `ADD VX, VY`, the words 0x8XY4 (R102): `x` is the first source and the destination, `y` the second source. -/
  | add (x y : RegIdx)
  deriving DecidableEq, Repr

end Sys2Proof
end

