-- ==== Sys2Proof/Config.lean ====
section
/-! DEFINITION. The parameters of 00_scope.md section 3. Every one is fixed by the spec, and 93_implementation_defined.md
leaves no behaviour as a free value, so this file declares no free value. -/

namespace Sys2Proof.Config

/-- `NREGS` (R6). -/
abbrev nregs : Nat := 16

/-- `RWIDTH` (R7). -/
abbrev regWidth : Nat := 8

/-- `MEMSIZE` (R8): bytes at addresses 0x000 to 0xFFF. -/
abbrev memSize : Nat := 4096

/-- `AWIDTH` (R8). -/
abbrev addrWidth : Nat := 12

/-- `ILEN` (R9), in bits. -/
abbrev instrBits : Nat := 16

/-- The 2 consecutive bytes an instruction occupies (R9). -/
abbrev instrBytes : Nat := 2

/-- `PCWIDTH` (R10). -/
abbrev pcWidth : Nat := 13

/-- `RESET_PC` (R11). -/
abbrev resetPc : Pc := 0

/-- `FLAG_REG` (R12): register 15, the carry flag `VF`. -/
abbrev flagReg : RegIdx := 15

end Sys2Proof.Config
end

