-- ==== Sys2Proof/WellFormed.lean ====
section
/-! DEFINITION. Which instruction terms are well formed, and the constraint R22 puts on programs.
An operand of `Instr` is a `RegIdx`, so an index above 15 cannot be written (R62): every term is an instruction of the hardware,
`ADD` with register 15 among them. -/

namespace Sys2Proof

/-- The term has an encoding: its register indices fit the 4-bit fields X and Y (R61, R62). -/
def Instr.wf : Instr → Bool
  | .halt => true
  | .add x y => decide (x.val < 16) && decide (y.val < 16)

/-- The instruction does not use register 15 as an accumulator: what a "well-formed program" (R17, R22) keeps to.
A constraint on programs only: the hardware executes the instructions this check refuses (R22, R106), and no definition of the
machine calls it. -/
def Instr.sparesFlag : Instr → Bool
  | .halt => true
  | .add x _ => decide (x ≠ Config.flagReg)

end Sys2Proof
end

