-- ==== Sys2Proof/Decode.lean ====
section
/-! DEFINITION. Decoding, total on every word and on any bytes, and after it the encoder (30_encoding.md). -/

namespace Sys2Proof

/-! ### The four nibbles (R61) -/

/-- `C = v[15:12]`, the instruction class. -/
def fieldC (v : Opcode) : Nibble := v.extractLsb' 12 4

/-- `X = v[11:8]`, a register index. -/
def fieldX (v : Opcode) : Nibble := v.extractLsb' 8 4

/-- `Y = v[7:4]`, a register index. -/
def fieldY (v : Opcode) : Nibble := v.extractLsb' 4 4

/-- `D = v[3:0]`, the sub-operation selector. -/
def fieldD (v : Opcode) : Nibble := v.extractLsb' 0 4

/-- A nibble read as a register index (R62). -/
def regOfNibble (n : Nibble) : RegIdx := ⟨n.toNat, n.isLt⟩

/-- A register index as the nibble that names it (R62). -/
def nibbleOfReg (i : RegIdx) : Nibble := BitVec.ofNat 4 i.val

/-! ### Decoding a word -/

/-- What a 16-bit word decodes to (R68). -/
inductive Decoded where
  /-- An instruction of the hardware. -/
  | instr (i : Instr)
  /-- Any other word: executing it raises `UnimplementedOpcode(opcode)` (R66). -/
  | unimplemented (opcode : Opcode)
  deriving DecidableEq, Repr

/-- The dispatch on the tuple `(C, X, Y, D)` (R64). -/
def decode (v : Opcode) : Decoded :=
  if fieldC v = 0 ∧ fieldX v = 0 ∧ fieldY v = 0 ∧ fieldD v = 0 then .instr .halt
  else if fieldC v = 8 ∧ fieldD v = 4 then .instr (.add (regOfNibble (fieldX v)) (regOfNibble (fieldY v)))
  else .unimplemented v

/-! ### Bytes and words: big-endian (R42, R45) -/

/-- The opcode whose high byte is `hi` and whose low byte is `lo`. -/
def wordOfBytes (hi lo : Byte) : Opcode := hi ++ lo

/-- `w[15:8]`, the byte at the lower address. -/
def highByte (v : Opcode) : Byte := v.extractLsb' 8 8

/-- `w[7:0]`, the byte at the higher address. -/
def lowByte (v : Opcode) : Byte := v.extractLsb' 0 8

/-- Why a list of bytes has no instruction at its head. -/
inductive DecodeError where
  /-- The first two bytes spell a word that is no instruction (R66). -/
  | unimplementedOpcode (opcode : Opcode)
  /-- Fewer than the two bytes every instruction has (R60). -/
  | tooFewBytes
  deriving DecidableEq, Repr

/-- The instruction at the head of a list of bytes, and the bytes after it (R60). -/
def decodeBytes : List Byte → Except DecodeError (Instr × List Byte)
  | hi :: lo :: rest =>
    match decode (wordOfBytes hi lo) with
    | .instr i => .ok (i, rest)
    | .unimplemented v => .error (.unimplementedOpcode v)
  | [_] => .error .tooFewBytes
  | [] => .error .tooFewBytes

/-! ### Encoding (R72) -/

/-- The word of an instruction: `0x0000`, and `0x8000 | (X << 8) | (Y << 4) | 0x4`. -/
def encode : Instr → Opcode
  | .halt => 0x0000
  | .add x y => 0x8000 ||| ((nibbleOfReg x).setWidth 16 <<< 8) ||| ((nibbleOfReg y).setWidth 16 <<< 4) ||| 0x0004

/-- The two bytes of an instruction, as memory holds them (R45). -/
def encodeBytes (i : Instr) : List Byte := [highByte (encode i), lowByte (encode i)]

/-! ### The opcode table (spec/opcode_table.json) -/

/-- A row of the table: the words `v` with `v & mask = pattern`. -/
structure OpcodeRow where
  /-- The bits the row fixes. -/
  mask : Opcode
  /-- Their values, the table's "match". -/
  pattern : Opcode
  deriving DecidableEq, Repr

/-- The word is one of the row's. -/
def OpcodeRow.admits (r : OpcodeRow) (v : Opcode) : Bool := v &&& r.mask == r.pattern

/-- Row `HALT`. -/
def haltRow : OpcodeRow where
  mask := 0xFFFF
  pattern := 0x0000

/-- Row `ADD`. -/
def addRow : OpcodeRow where
  mask := 0xF00F
  pattern := 0x8004

/-- The row an instruction's constructor stands for. -/
def rowOf : Instr → OpcodeRow
  | .halt => haltRow
  | .add _ _ => addRow

/-! ### The host's numbering of a table word -/

/-- The instruction word whose bits are `w`, numbered as the opcode table numbers them, with every bit from `nbits` on 0. -/
def tableOpcode (nbits w : Nat) : Opcode := BitVec.ofNat 16 (w % 2 ^ nbits)

/-- The instruction the decoder reads from the bytes of that word laid out as the hardware stores them. -/
def decodeTableWord (nbits w : Nat) : Option Instr :=
  match decodeBytes [highByte (tableOpcode nbits w), lowByte (tableOpcode nbits w)] with
  | .ok (i, _) => some i
  | .error _ => none

end Sys2Proof
end

