-- ==== Sys2Proof/Machine/State.lean ====
section
/-! DEFINITION. The state of the core (10_state.md), the reasons a step could stop, and the state after reset. -/

namespace Sys2Proof.Machine

/-- Memory (R36, R40): the bytes that differ from what an unlisted address reads as, by rising address (`Memory.wf`). -/
abbrev Memory := List Host.Cell

/-- `run_state`, a 2-bit field with four values (R30). -/
inductive RunState where
  /-- 0: reset, no run started. -/
  | idle
  /-- 1: the core is stepping. -/
  | running
  /-- 2: the last run ended on HALT. -/
  | halted
  /-- 3: the last run ended on a fatal fault. -/
  | faulted
  deriving DecidableEq, Repr

/-- `fault_cause`, a 2-bit field (R31, R120). -/
inductive FaultCause where
  /-- 0: `NONE`. -/
  | none
  /-- 1: `UNIMPLEMENTED_OPCODE`. -/
  | unimplementedOpcode
  /-- 2: `FETCH_OUT_OF_BOUNDS`. -/
  | fetchOutOfBounds
  /-- 3: reserved, never written. -/
  | reserved
  deriving DecidableEq, Repr

/-- The two synchronous faults of the hardware (R120), the `E` of `raise E(info)`. -/
inductive Exc where
  /-- `UnimplementedOpcode` (R121). -/
  | unimplementedOpcode
  /-- `FetchOutOfBounds` (R122). -/
  | fetchOutOfBounds
  deriving DecidableEq, Repr

/-- The whole state of the core (R20 to R36); the opcode and its nibbles are never stored (R37). -/
structure State where
  /-- `x[0]` to `x[15]`, register 15 being the carry flag (R20, R21). -/
  regs : Vector Byte 16
  /-- The program counter (R24). -/
  pc : Pc
  /-- The 4096 bytes of memory (R36). -/
  mem : Memory
  /-- The run state (R30). -/
  runState : RunState
  /-- The cause of the fault record (R31). -/
  faultCause : FaultCause
  /-- The info of the fault record (R32). -/
  faultInfo : BitVec 16
  deriving DecidableEq, Repr

/-- The reasons a step stops outside the hardware's own states: none.
Both faults of the hardware are states of it that the spec describes (R124), so a step that raises one answers a next state. -/
inductive Fault where
  deriving DecidableEq, Repr

/-- The reasons the model has no meaning for an instruction. -/
inductive Refusal where
  /-- Raised only by an arm of `exec` whose instruction has no meaning in the model; no arm is such. Safe: the run stops. -/
  | notModelled (mnemonic : String)
  deriving DecidableEq, Repr

/-- The machine right after reset (R140): every piece of state at the value the spec gives it (R141: none is unspecified). -/
def State.reset : State where
  regs := Vector.replicate 16 0
  pc := Config.resetPc
  mem := []
  runState := .idle
  faultCause := .none
  faultInfo := 0

end Sys2Proof.Machine
end

