-- ==== Sys2Proof/Machine/Ops.lean ====
section
/-! DEFINITION. The named operations over memory, the registers, the program counter and the run-state record. -/

namespace Sys2Proof.Machine

/-! ### Memory (20_memory.md) -/

/-- What an address the list does not hold reads as: the reset value of every byte (R36, R140). -/
abbrev Memory.unlisted : Byte := 0

/-- The byte at address `a`. -/
def Memory.readByte : Memory → Nat → Byte
  | [], _ => Memory.unlisted
  | (a', b') :: m, a => if a = a' then b' else Memory.readByte m a

/-- The entry for byte `b` at address `a` put before the list `m`, unless it is what an unlisted address reads as. -/
def Memory.consByte (a : Nat) (b : Byte) (m : Memory) : Memory := if b = Memory.unlisted then m else (a, b) :: m

/-- `mem[a] <- b`, keeping the canonical form: storing what an unlisted address reads as removes the entry. -/
def Memory.writeByte : Memory → Nat → Byte → Memory
  | [], a, b => Memory.consByte a b []
  | (a', b') :: m, a, b =>
    if a < a' then Memory.consByte a b ((a', b') :: m)
    else if a = a' then Memory.consByte a b m
    else (a', b') :: Memory.writeByte m a b

/-- The canonical form of a list whose addresses are at least `lo`. -/
def Memory.wfFrom (lo : Nat) : Memory → Bool
  | [] => true
  | (a, b) :: m => decide (lo ≤ a) && decide (a < Config.memSize) && decide (b ≠ Memory.unlisted) && Memory.wfFrom (a + 1) m

/-- The canonical form: addresses strictly rising and inside the 4096 bytes (R40), and no entry equal to what an unlisted address
reads as. -/
def Memory.wf (m : Memory) : Bool := Memory.wfFrom 0 m

/-- `MemRead(a, 2)`: the byte at `a` is the high one (R15, R42, R45). -/
def Memory.readWord (m : Memory) (a : Nat) : Opcode := wordOfBytes (m.readByte a) (m.readByte (a + 1))

/-- A word stored as the host stores it, byte by byte: `w[15:8]` to `a` and `w[7:0]` to `a + 1` (R45). -/
def Memory.writeWord (m : Memory) (a : Nat) (v : Opcode) : Memory :=
  (m.writeByte a (highByte v)).writeByte (a + 1) (lowByte v)

/-! ### The register file (R20) -/

/-- `x[i]`. -/
def State.readReg (s : State) (i : RegIdx) : Byte := s.regs.get i

/-- `x[i] <- v`: no register is hardwired. -/
def State.writeReg (s : State) (i : RegIdx) (v : Byte) : State := { s with regs := s.regs.set i.val v i.isLt }

/-! ### Fetch and advance (40_control.md section 1) -/

/-- The two bytes at the program counter are addresses of memory: the negation of the bounds check `pc + 1 > 0xFFF` (R44). -/
def State.fetchInBounds (s : State) : Bool := decide (s.pc.toNat + 1 ≤ 0xFFF)

/-- The fetch (R42): the opcode at the program counter, whatever its parity (R43), or `none`, with no byte read, out of bounds
(R44). It changes no state. -/
def fetch (s : State) : Option Opcode :=
  if s.fetchInBounds then some (s.mem.readWord s.pc.toNat) else none

/-- The advance (R82): `pc <- pc + 2`. -/
def advance (s : State) : State := { s with pc := s.pc + 2 }

/-! ### The run-state record (10_state.md section 5) -/

/-- The 2-bit code of a run state (R30). -/
def RunState.code : RunState → BitVec 2
  | .idle => 0
  | .running => 1
  | .halted => 2
  | .faulted => 3

/-- The 2-bit code of a fault cause (R31). -/
def FaultCause.code : FaultCause → BitVec 2
  | .none => 0
  | .unimplementedOpcode => 1
  | .fetchOutOfBounds => 2
  | .reserved => 3

/-- What `fault_cause` receives (R120, R124). -/
def Exc.cause : Exc → FaultCause
  | .unimplementedOpcode => .unimplementedOpcode
  | .fetchOutOfBounds => .fetchOutOfBounds

/-- Taking a fault, `raise E(info)` (R124): the run-state record is written and nothing else.
There is no return from it (R126): only reset leaves `FAULTED`. -/
def raise (e : Exc) (info : BitVec 16) (s : State) : State :=
  { s with runState := .faulted, faultCause := e.cause, faultInfo := info }

/-- A fetch at `pc` outside memory: the info is `zext_16(pc)` (R122). -/
def raiseFetchOutOfBounds (s : State) : State := raise .fetchOutOfBounds (s.pc.setWidth 16) s

/-- A word that is no instruction: the info is "the full 16-bit opcode value" (R121). -/
def raiseUnimplementedOpcode (v : Opcode) (s : State) : State := raise .unimplementedOpcode v s

/-- The end of a run on HALT: `run_state <- HALTED` (R89). -/
def stopHalted (s : State) : State := { s with runState := .halted }

/-- The STATUS word (R34): [1:0] `run_state`, [3:2] `fault_cause`, [15:4] 0, [31:16] `fault_info`. -/
def State.status (s : State) : StatusWord := s.faultInfo ++ (0 : BitVec 12) ++ s.faultCause.code ++ s.runState.code

end Sys2Proof.Machine
end

