-- ==== Sys2Proof/Machine/Operands.lean ====
section
/-! DEFINITION. The operand forms. There is one: a register named by a 4-bit field (R62, R63); there is no immediate and no
memory operand. -/

namespace Sys2Proof.Machine

/-- The two source operands of `ADD VX, VY`, both read before either write (R103). -/
def readSources (x y : RegIdx) (s : State) : Byte × Byte := (s.readReg x, s.readReg y)

/-- The two writes of an ALU operation, in the order R103 gives them: the result to `x[X]`, then the flag to `x[15]`.
Where X is 15 the later write remains (R16, R106). -/
def writeResultThenFlag (x : RegIdx) (result flag : Byte) (s : State) : State :=
  (s.writeReg x result).writeReg Config.flagReg flag

end Sys2Proof.Machine
end

