-- ==== Sys2Proof/Machine/Alu.lean ====
section
/-! DEFINITION. The ALU family: ADD (41_alu.md section 2). -/

namespace Sys2Proof.Machine

/-- `ADD VX, VY` (R103), after the advance. It raises nothing (R105) and runs on register 15 as on any other (R22). -/
def execAdd (x y : RegIdx) (s : State) : Host.Outcome State Fault Refusal :=
  let (a, b) := readSources x y s
  let t := exactSum a b
  .next (writeResultThenFlag x (sumByte t) (carryByte t) s)

end Sys2Proof.Machine
end

