-- ==== Sys2Proof/Machine/Control.lean ====
section
/-! DEFINITION. The control family: HALT (40_control.md section 3). -/

namespace Sys2Proof.Machine

/-- HALT (R89), after the advance: `run_state <- HALTED`. It writes no register and raises nothing (R90). -/
def execHalt (s : State) : Host.Outcome State Fault Refusal := .next (stopHalted s)

end Sys2Proof.Machine
end

