-- ==== Sys2Proof/Machine/Dispatch.lean ====
section
/-! DEFINITION. The meaning of every instruction, one arm per constructor (R84). -/

namespace Sys2Proof.Machine

/-- Executing an instruction at a state whose program counter the step has already advanced (R82, R84). -/
def exec (i : Instr) (s : State) : Host.Outcome State Fault Refusal :=
  match i with
  | .halt => Sys2Proof.Machine.execHalt s
  | .add x y => Sys2Proof.Machine.execAdd x y s

end Sys2Proof.Machine
end

