-- ==== Sys2Proof/Machine/Cycle.lean ====
section
/-! DEFINITION. One pass of the fetch-advance-decode-dispatch cycle (40_control.md section 1), and the placing of a word where
the cycle fetches. -/

namespace Sys2Proof.Machine

/-- Decode and dispatch (R83, R84) of the opcode `v` at a state already advanced. -/
def dispatchWord (v : Opcode) (s : State) : Host.Outcome State Fault Refusal :=
  match decode v with
  | .instr i => exec i s
  | .unimplemented w => .next (raiseUnimplementedOpcode w s)

/-- One step of a running core (R80): fetch, advance, decode, dispatch; the bounds check comes first (R123). -/
def runCycle (s : State) : Host.Outcome State Fault Refusal :=
  match fetch s with
  | none => .next (raiseFetchOutOfBounds s)
  | some v => dispatchWord v (advance s)

/-- The core steps only while `RUNNING` (R80); in a stop state it takes no step "and all state is held" (R137), which is written
as the same state again (DEDUCED, safe: notes/assumptions/1.md). -/
def cycle (s : State) : Host.Outcome State Fault Refusal :=
  match s.runState with
  | .running => runCycle s
  | .idle => .next s
  | .halted => .next s
  | .faulted => .next s

/-- Where a word is placed to be fetched next: the program counter, or the entry point where no word of memory stands at the
program counter (DESIGN CHOICE, safe: notes/assumptions/4.md). -/
def placePc (s : State) : Pc := if s.fetchInBounds then s.pc else Config.resetPc

/-- The word `v` stored where the next step fetches, and the core running (DESIGN CHOICE, safe: notes/assumptions/4.md). -/
def placeWord (v : Opcode) (s : State) : State :=
  { s with mem := s.mem.writeWord (placePc s).toNat v, pc := placePc s, runState := .running }

end Sys2Proof.Machine
end

