-- ==== Sys2Proof/Machine/Step.lean ====
section
/-! DEFINITION. The step of the core, and the host's way of placing one word to be run. -/

namespace Sys2Proof.Machine

/-- One step (R80). -/
def step (s : State) : Host.Outcome State Fault Refusal := cycle s

/-- `s` with the table word `w` of `nbits` bits placed so that the very next step fetches and runs it. -/
def State.withFetchWord (s : State) (nbits w : Nat) : State := placeWord (tableOpcode nbits w) s

end Sys2Proof.Machine
end

