-- ==== Sys2Proof/Machine/HostPort.lean ====
section
/-! DEFINITION. The host's eight operations on the core (60_exceptions.md section 6). -/

namespace Sys2Proof.Machine

/-- The operations of R130. An address has exactly 12 bits (R48) and an index 4. -/
inductive HostOp where
  /-- `WriteMem(a, b)`: `mem[a] <- b` (R46). -/
  | writeMem (a : Addr) (b : Byte)
  /-- `ReadMem(a)`: the byte `mem[a]` (R47). -/
  | readMem (a : Addr)
  /-- `WriteReg(i, b)`: `x[i] <- b`. -/
  | writeReg (i : RegIdx) (b : Byte)
  /-- `ReadReg(i)`: the byte `x[i]`. -/
  | readReg (i : RegIdx)
  /-- `ReadPC()`: the 13-bit `pc`. -/
  | readPC
  /-- `ReadStatus()`: the STATUS word (R34). -/
  | readStatus
  /-- `Start()` (R131). -/
  | start
  /-- `Reset()` (R140). -/
  | reset
  deriving DecidableEq, Repr

/-- The result an operation gives the host (the table under R130). -/
inductive HostReply where
  /-- No result: a write, Start or Reset. -/
  | done
  /-- A byte of memory or of the register file. -/
  | byte (b : Byte)
  /-- The program counter. -/
  | pc (p : Pc)
  /-- The STATUS word. -/
  | status (w : StatusWord)
  deriving DecidableEq, Repr

/-- How an operation ends: "each one atomic, and each accepted only while `run_state != RUNNING`" (R130). -/
inductive HostResult where
  /-- Accepted: the state after it and its result. -/
  | accepted (s : State) (r : HostReply)
  /-- The core is running: no operation is enabled, and nothing happens. -/
  | notAccepted
  deriving DecidableEq, Repr

/-- `mem[a] <- b`; no other state changes (R46). -/
def hostWriteMem (a : Addr) (b : Byte) (s : State) : State := { s with mem := s.mem.writeByte a.toNat b }

/-- `run_state <- RUNNING` from `IDLE` or `HALTED`, so that the run goes on from the current `pc`; no effect in `FAULTED`
(R131). -/
def hostStart (s : State) : State :=
  match s.runState with
  | .idle => { s with runState := .running }
  | .halted => { s with runState := .running }
  | .running => s
  | .faulted => s

/-- The state an accepted operation leaves (R130). -/
def hostEffect (op : HostOp) (s : State) : State :=
  match op with
  | .writeMem a b => hostWriteMem a b s
  | .readMem _ => s
  | .writeReg i b => s.writeReg i b
  | .readReg _ => s
  | .readPC => s
  | .readStatus => s
  | .start => hostStart s
  | .reset => State.reset

/-- The result an accepted operation gives (R130). -/
def hostReply (op : HostOp) (s : State) : HostReply :=
  match op with
  | .writeMem _ _ => .done
  | .readMem a => .byte (s.mem.readByte a.toNat)
  | .writeReg _ _ => .done
  | .readReg i => .byte (s.readReg i)
  | .readPC => .pc s.pc
  | .readStatus => .status s.status
  | .start => .done
  | .reset => .done

/-- One operation of the host: accepted in `IDLE`, `HALTED` and `FAULTED`, and in no other state (R130). -/
def hostAct (op : HostOp) (s : State) : HostResult :=
  if s.runState = .running then .notAccepted else .accepted (hostEffect op s) (hostReply op s)

end Sys2Proof.Machine
end

