-- ==== Sys2Proof/Machine/System.lean ====
section
/-! DEFINITION. The core and the host together, as the untimed transition system of R147: which transitions a state has. -/

namespace Sys2Proof.Machine

/-- What can happen to the machine: a step of the core, or an operation of the host. -/
inductive Action where
  /-- One step of the core. -/
  | core
  /-- One operation of the host. -/
  | host (op : HostOp)
  deriving DecidableEq, Repr

/-- The core's step is enabled exactly when `run_state = RUNNING` (R80). -/
def coreEnabled (s : State) : Bool := decide (s.runState = .running)

/-- The state after an action, or `none` where the action is not enabled: the core acts only while `RUNNING`, the host only while
not (R53). -/
def act (a : Action) (s : State) : Option State :=
  match a with
  | .core =>
    if coreEnabled s then
      match step s with
      | .next t => some t
      | .fault _ => none
      | .refused _ => none
    else none
  | .host op =>
    match hostAct op s with
    | .accepted t _ => some t
    | .notAccepted => none

end Sys2Proof.Machine
end

