-- ==== Sys2Proof/Safety.lean ====
section
/-! DEFINITION. The terms the statements use: runs, reachable states, and the invariant of every reachable state. -/

namespace Sys2Proof.Machine

/-- `k` steps of the core, as the host's interface runs them. -/
def runSteps (k : Nat) (s : State) : Host.Outcome State Fault Refusal := Host.Core.run Sys2Proof.core k s

/-- A state the machine can come to: from reset (power-on), by steps of the core and operations of the host (R140, R147). -/
inductive Reachable : State → Prop where
  | reset : Reachable State.reset
  | next {s t : State} (a : Action) : Reachable s → act a s = some t → Reachable t

/-- The run-state record is coherent: a cause exactly in `FAULTED`, never the reserved one, no info without a cause, and the info
its cause records (R31, R32, R120, R121, R122). -/
structure RecordCoherent (s : State) : Prop where
  faulted_iff : s.runState = .faulted ↔ s.faultCause ≠ .none
  not_reserved : s.faultCause ≠ .reserved
  info_none : s.faultCause = .none → s.faultInfo = 0
  info_opcode : s.faultCause = .unimplementedOpcode → decode s.faultInfo = .unimplemented s.faultInfo ∧ 2 ≤ s.pc.toNat
  info_fetch : s.faultCause = .fetchOutOfBounds → s.pc.toNat = 4096 ∧ s.faultInfo = s.pc.setWidth 16

/-- What holds of every reachable state. -/
structure Inv (s : State) : Prop where
  /-- Memory is in canonical form: the model's own representation (DESIGN CHOICE, safe: notes/assumptions/6.md). -/
  mem_wf : s.mem.wf = true
  /-- The program counter is even (R26). -/
  pc_even : s.pc.toNat % 2 = 0
  /-- The program counter is one of 0, 2, ..., 4096 (R24, R27). -/
  pc_le : s.pc.toNat ≤ 4096
  /-- No run has started: the program counter is still at the entry point (R24, R30). -/
  idle_pc : s.runState = .idle → s.pc = Config.resetPc
  /-- A run that halted is past the HALT it ended on (R25, R91). -/
  halted_pc : s.runState = .halted → 2 ≤ s.pc.toNat
  /-- The run-state record is coherent. -/
  record : RecordCoherent s

/-- The core takes no step: no run has begun, or the last one has ended (R132, R137). -/
def Stopped (s : State) : Prop := s.runState ≠ .running

/-- The opcode is no instruction of the hardware: "neither 0x0000 nor of the form 0x8XY4" (R66), the form being match 0x8004
under mask 0xF00F (R64). -/
def IllegalOpcode (v : Opcode) : Prop := v ≠ 0x0000 ∧ v &&& 0xF00F ≠ 0x8004

end Sys2Proof.Machine
end

