-- ==== Sys2Proof/Certificates/Slice0/Obligations.lean ====
section
/-! DEFINITION. The statements for the provers, in the order of OBLIGATIONS.json. Each docstring says which rule or section of
spec/ it formalises. "The spec's decision D<n>" names a choice of 92_eei_decisions.md that a numbered rule states. -/

open Sys2Proof Sys2Proof.Machine

/-! ### Reset and the run-state record -/

/-- R140 (the spec's decisions D5, D11, D17): reset sets every piece of state to its reset value; `Reset()` is accepted only while
`run_state != RUNNING`, and leaves `FAULTED`. -/
def Obligations.ResetSetsEveryPieceOfState : Prop :=
  (∀ i, State.reset.readReg i = 0) ∧ (∀ a, a < 4096 → State.reset.mem.readByte a = 0) ∧ State.reset.pc = 0 ∧
  State.reset.runState = .idle ∧ State.reset.faultCause = .none ∧ State.reset.faultInfo = 0 ∧
  (∀ s : State, s.runState ≠ .running → hostAct .reset s = .accepted State.reset .done) ∧
  (∀ s : State, s.runState = .running → hostAct .reset s = .notAccepted)

/-- R34 (the spec's decision D8), with the codes of R30 and R31: the layout of the STATUS word the host reads, its value after
reset, and that no operation but Start and Reset changes it. -/
def Obligations.StatusWordLaysOutTheRunStateRecord : Prop :=
  (∀ s : State, s.status.extractLsb' 0 2 = s.runState.code ∧ s.status.extractLsb' 2 2 = s.faultCause.code ∧
    s.status.extractLsb' 4 12 = 0 ∧ s.status.extractLsb' 16 16 = s.faultInfo) ∧
  (RunState.code .idle = 0 ∧ RunState.code .running = 1 ∧ RunState.code .halted = 2 ∧ RunState.code .faulted = 3) ∧
  (FaultCause.code .none = 0 ∧ FaultCause.code .unimplementedOpcode = 1 ∧ FaultCause.code .fetchOutOfBounds = 2 ∧
    FaultCause.code .reserved = 3) ∧
  (∀ s : State, s.runState ≠ .running → hostAct .readStatus s = .accepted s (.status s.status)) ∧
  (∀ (op : HostOp) (s t : State) (r : HostReply), hostAct op s = .accepted t r → op ≠ .start → op ≠ .reset →
    t.status = s.status) ∧
  State.reset.status = 0x00000000

/-- R33 (the spec's decisions D5, D6): only the core's step (to `HALTED` or `FAULTED`), Start (to `RUNNING`) and reset change the
run-state record; only reset clears a fault record; and the record is invisible to instructions. -/
def Obligations.RunStateRecordChangesOnlyByStepStartAndReset : Prop :=
  (∀ (a : Action) (s t : State), act a s = some t → s.runState ≠ t.runState ∨ s.faultCause ≠ t.faultCause ∨ s.faultInfo ≠ t.faultInfo →
    (a = .core ∧ (t.runState = .halted ∨ t.runState = .faulted)) ∨ (a = .host .start ∧ t.runState = .running) ∨
    a = .host .reset) ∧
  (∀ (a : Action) (s t : State), act a s = some t → s.faultCause ≠ .none → t.faultCause = .none → a = .host .reset) ∧
  (∀ (i : Instr) (s s' : State), (∀ r, s.readReg r = s'.readReg r) → s.pc = s'.pc → s.mem = s'.mem →
    ∃ t t', exec i s = .next t ∧ exec i s' = .next t' ∧ (∀ r, t.readReg r = t'.readReg r) ∧ t.pc = t'.pc ∧ t.mem = t'.mem)

/-- R124 (the spec's decisions D3, D4, D5): raising a fault writes the run-state record and nothing else, and no further step is
taken. -/
def Obligations.RaiseWritesOnlyTheRunStateRecord : Prop :=
  ∀ (e : Exc) (info : BitVec 16) (s : State),
    (raise e info s).runState = .faulted ∧ (raise e info s).faultInfo = info ∧
    (raise e info s).faultCause.code = (match e with | .unimplementedOpcode => 1 | .fetchOutOfBounds => 2) ∧
    (∀ i, (raise e info s).readReg i = s.readReg i) ∧ (raise e info s).pc = s.pc ∧
    (∀ a, (raise e info s).mem.readByte a = s.mem.readByte a) ∧ act .core (raise e info s) = none

/-! ### Fetch and the step -/

/-- R42: the fetch reads the opcode at the program counter, high byte first, where it is defined. `fetch` gives no state, so it
changes none. -/
def Obligations.FetchReadsTheWordHighByteFirst : Prop :=
  (∀ s : State, s.pc.toNat + 1 ≤ 0xFFF → ∃ w, fetch s = some w ∧
    w = s.mem.readByte s.pc.toNat ++ s.mem.readByte (s.pc.toNat + 1) ∧
    w.toNat = (s.mem.readByte s.pc.toNat).toNat * 256 + (s.mem.readByte (s.pc.toNat + 1)).toNat) ∧
  (∀ s : State, (∃ w, fetch s = some w) → s.pc.toNat + 1 ≤ 0xFFF) ∧
  (∀ s : State, s.pc.toNat + 1 ≤ 0xFFF → s.mem.readByte s.pc.toNat = 0x80 → s.mem.readByte (s.pc.toNat + 1) = 0x14 →
    fetch s = some 0x8014)

/-- R44 (the spec's decision D2): a fetch whose second byte is no index of memory raises `FetchOutOfBounds`, in every state, with
no byte read (the state it leaves does not depend on memory beyond keeping it); in a reachable state this is at 4096. -/
def Obligations.FetchPastTheEndRaisesFetchOutOfBounds : Prop :=
  ∀ s : State, s.runState = .running → 0xFFF < s.pc.toNat + 1 →
    4095 ≤ s.pc.toNat ∧ fetch s = none ∧
    step s = .next { s with runState := .faulted, faultCause := .fetchOutOfBounds, faultInfo := s.pc.setWidth 16 } ∧
    (Reachable s → s.pc.toNat = 4096)

/-- R121: a word that is neither 0x0000 nor of the form 0x8XY4 is fatal, with the full opcode as the info, the program counter past
the word, and no register and no byte of memory changed; the source's example is 0x00E0. -/
def Obligations.UnimplementedOpcodeRaisesItsFault : Prop :=
  (∀ (s : State) (w : Opcode), s.runState = .running → fetch s = some w → w ≠ 0x0000 → w &&& 0xF00F ≠ 0x8004 →
    ∃ t, step s = .next t ∧ t.runState = .faulted ∧ t.faultCause = .unimplementedOpcode ∧ t.faultInfo = w ∧
      t.pc.toNat = s.pc.toNat + 2 ∧ (∀ i, t.readReg i = s.readReg i) ∧ (∀ a, t.mem.readByte a = s.mem.readByte a)) ∧
  (∀ s : State, s.runState = .running → fetch s = some 0x00E0 →
    ∃ t, step s = .next t ∧ t.runState = .faulted ∧ t.faultInfo = 0x00E0)

/-- R80: a step is enabled exactly while `RUNNING`, and is fetch, advance, decode and dispatch in the pseudocode's order. -/
def Obligations.StepIsFetchAdvanceDecodeDispatch : Prop :=
  (∀ s : State, (∃ t, act .core s = some t) ↔ s.runState = .running) ∧
  (∀ s : State, s.runState = .running →
    step s =
      if s.pc.toNat + 1 > 0xFFF then .next (raise .fetchOutOfBounds (s.pc.setWidth 16) s)
      else
        let opcode : Opcode := s.mem.readByte s.pc.toNat ++ s.mem.readByte (s.pc.toNat + 1)
        let s' : State := { s with pc := s.pc + 2 }
        let C : Nibble := opcode.extractLsb' 12 4
        let X : Nibble := opcode.extractLsb' 8 4
        let Y : Nibble := opcode.extractLsb' 4 4
        let D : Nibble := opcode.extractLsb' 0 4
        if C = 0 ∧ X = 0 ∧ Y = 0 ∧ D = 0 then exec .halt s'
        else if C = 8 ∧ D = 4 then exec (.add ⟨X.toNat, X.isLt⟩ ⟨Y.toNat, Y.isLt⟩) s'
        else .next (raise .unimplementedOpcode opcode s'))

/-- 40_control.md section 1 and 30_encoding.md section 6: when the bytes at the program counter are those of an instruction, the
step of a running core is the instruction's meaning at the state moved past its two bytes. -/
def Obligations.StepRunsTheDecodedInstruction : Prop :=
  ∀ (s : State) (i : Instr) (hi lo : Byte), s.runState = .running → s.pc.toNat + 1 ≤ 0xFFF →
    s.mem.readByte s.pc.toNat = hi → s.mem.readByte (s.pc.toNat + 1) = lo → decodeBytes [hi, lo] = .ok (i, []) →
    step s = exec i { s with pc := s.pc + 2 }

/-- R82 (the spec's decision D1): the program counter advances by 2 on every step whose fetch succeeded, whatever the opcode, and
the sum is at most 4096. -/
def Obligations.EveryFetchedStepAdvancesThePc : Prop :=
  ∀ (s : State) (w : Opcode), s.runState = .running → fetch s = some w →
    s.pc.toNat ≤ 4094 ∧ ∃ t, step s = .next t ∧ t.pc.toNat = s.pc.toNat + 2 ∧ t.pc.toNat ≤ 4096

/-- R85 (the spec's decision D5): a run goes on or ends in one of three ways, and no other event ends it. -/
def Obligations.ARunEndsInOneOfThreeWays : Prop :=
  ∀ s : State, s.runState = .running →
    (∃ t, act .core s = some t) ∧ (∀ op, act (.host op) s = none) ∧
    ∀ (a : Action) (t : State), act a s = some t →
      t.runState = .running ∨
      (t.runState = .halted ∧ fetch s = some 0x0000) ∨
      (t.runState = .faulted ∧ t.faultCause = .unimplementedOpcode ∧ ∃ w, fetch s = some w ∧ IllegalOpcode w) ∨
      (t.runState = .faulted ∧ t.faultCause = .fetchOutOfBounds ∧ fetch s = none)

/-- 60_exceptions.md section 7 (all state is held in a stop state; no step is enabled there). That `step` writes this as the same
state again is the model's reading: notes/assumptions/1.md. -/
def Obligations.StopStatesHoldAllState : Prop :=
  ∀ s : State, s.runState ≠ .running → step s = .next s ∧ act .core s = none

/-- A step has an outcome in every state, and an instruction in every state and on every operand; neither stops the model.
For a running core this is 40_control.md section 1, with a fault of the hardware being a next state whose record says so (the model's
reading, DEDUCED: notes/assumptions/3.md). In `IDLE`, `HALTED` and `FAULTED`, where the spec enables no step, that `step` answers a
next state at all is the model's own reading too (DEDUCED: notes/assumptions/1.md), and no rule of the spec. -/
def Obligations.EveryStepAndEveryInstructionCompletes : Prop :=
  (∀ s : State, ∃ t, step s = .next t) ∧ (∀ (i : Instr) (s : State), ∃ t, exec i s = .next t)

/-- 60_exceptions.md section 2 (faults are precise): the faulting step changes nothing but the run-state record and, for
`UnimplementedOpcode`, the program counter by the advance. -/
def Obligations.FaultsArePrecise : Prop :=
  ∀ s t : State, s.runState = .running → step s = .next t → t.runState = .faulted →
    (∀ i, t.readReg i = s.readReg i) ∧ t.mem = s.mem ∧
    ((t.faultCause = .unimplementedOpcode ∧ t.pc.toNat = s.pc.toNat + 2) ∨ (t.faultCause = .fetchOutOfBounds ∧ t.pc = s.pc))

/-! ### HALT -/

/-- R89 (the spec's decision D5): HALT at address A leaves `pc = A + 2` and `run_state = HALTED`; the first clause is the meaning
alone, the second the whole step. -/
def Obligations.HaltEndsTheRunCleanly : Prop :=
  (∀ s : State, exec .halt s = .next { s with runState := .halted }) ∧
  (∀ s : State, s.runState = .running → fetch s = some 0x0000 →
    step s = .next { s with pc := s.pc + 2, runState := .halted } ∧ (s.pc + 2).toNat = s.pc.toNat + 2 ∧
    act .core { s with pc := s.pc + 2, runState := .halted } = none)

/-- 40_control.md section 3: what HALT leaves unchanged (every register, the carry flag among them; memory; the program counter
after the advance; the fault record). -/
def Obligations.HaltFrame : Prop :=
  ∀ s t : State, exec .halt s = .next t →
    (∀ i, t.readReg i = s.readReg i) ∧ t.pc = s.pc ∧ (∀ a, t.mem.readByte a = s.mem.readByte a) ∧
    t.faultCause = s.faultCause ∧ t.faultInfo = s.faultInfo

/-- 40_control.md section 3 (the last sentences of its corner cases): HALT at 4094 leaves `pc = 4096`, and a later Start faults on
its first fetch. -/
def Obligations.StartAfterHaltAtTheTopOfMemoryFaults : Prop :=
  ∀ s : State, s.runState = .running → s.pc.toNat = 4094 → fetch s = some 0x0000 →
    ∃ t u v, step s = .next t ∧ t.runState = .halted ∧ t.pc.toNat = 4096 ∧ hostAct .start t = .accepted u .done ∧
      step u = .next v ∧ v.runState = .faulted ∧ v.faultCause = .fetchOutOfBounds ∧ v.faultInfo = 0x1000 ∧ v.pc = t.pc

/-! ### ADD -/

/-- R103 and R104 (the spec's decision D9): both operands are read first; the wrapped sum is stored in register X (where X is not
15, the flag being written after it), the carry in register 15 on every execution; register Y is unchanged unless it is X or 15,
the program counter is not changed further, and memory is not touched. -/
def Obligations.AddWritesTheWrappedSumAndTheCarry : Prop :=
  ∀ (x y : RegIdx) (s : State), ∃ t, exec (.add x y) s = .next t ∧
    (x ≠ 15 → (t.readReg x).toNat = ((s.readReg x).toNat + (s.readReg y).toNat) % 256) ∧
    t.readReg 15 = (if 255 < (s.readReg x).toNat + (s.readReg y).toNat then 0x01 else 0x00) ∧
    (y ≠ x → y ≠ 15 → t.readReg y = s.readReg y) ∧ t.pc = s.pc ∧ (∀ a, t.mem.readByte a = s.mem.readByte a)

/-- 41_alu.md section 2: what ADD leaves unchanged (every register but X and the flag register 15; the program counter after the
advance; every byte of memory; the run-state record). -/
def Obligations.AddFrame : Prop :=
  ∀ (x y : RegIdx) (s t : State), exec (.add x y) s = .next t →
    (∀ i, i ≠ x → i ≠ 15 → t.readReg i = s.readReg i) ∧ t.pc = s.pc ∧ (∀ a, t.mem.readByte a = s.mem.readByte a) ∧
    t.runState = s.runState ∧ t.faultCause = s.faultCause ∧ t.faultInfo = s.faultInfo

/-- R106 (the spec's decision D9): with X = 15 both writes target register 15 and the carry remains; the hardware executes it. -/
def Obligations.AddToTheFlagRegisterKeepsOnlyTheCarry : Prop :=
  ∀ (y : RegIdx) (s : State), ∃ t, exec (.add 15 y) s = .next t ∧
    t.readReg 15 = (if 255 < (s.readReg 15).toNat + (s.readReg y).toNat then 1 else 0) ∧
    (∀ i, i ≠ 15 → t.readReg i = s.readReg i)

/-- 41_alu.md section 2, the corner cases of shared registers, (a) to (c), which the spec derives from R103 and R106. -/
def Obligations.AddOnSharedRegisters : Prop :=
  (∀ (x : RegIdx) (s : State), x ≠ 15 → ∃ t, exec (.add x 15) s = .next t ∧
    (t.readReg x).toNat = ((s.readReg x).toNat + (s.readReg 15).toNat) % 256 ∧
    t.readReg 15 = (if 255 < (s.readReg x).toNat + (s.readReg 15).toNat then 1 else 0)) ∧
  (∀ (x : RegIdx) (s : State), x ≠ 15 → ∃ t, exec (.add x x) s = .next t ∧
    (t.readReg x).toNat = (2 * (s.readReg x).toNat) % 256 ∧ (t.readReg 15 = 1 ↔ 128 ≤ (s.readReg x).toNat)) ∧
  (∀ s : State, ∃ t, exec (.add 15 15) s = .next t ∧ t.readReg 15 = (if 128 ≤ (s.readReg 15).toNat then 1 else 0))

/-- 41_alu.md section 1 (the last sentence of its laws, which the spec derives): the exact sum is `256 * carry + result`. -/
def Obligations.AddCarryAndResultMakeTheExactSum : Prop :=
  ∀ (x y : RegIdx) (s : State), x ≠ 15 → ∃ t, exec (.add x y) s = .next t ∧
    (s.readReg x).toNat + (s.readReg y).toNat = 256 * (t.readReg 15).toNat + (t.readReg x).toNat

/-- 41_alu.md section 1 and 90_conflicts.md C5: ADD computes from its two operands and nothing else; in particular the old carry is
not added in. -/
def Obligations.AddDependsOnlyOnItsTwoOperands : Prop :=
  ∀ (x y : RegIdx) (s s' : State), s.readReg x = s'.readReg x → s.readReg y = s'.readReg y →
    ∃ t t', exec (.add x y) s = .next t ∧ exec (.add x y) s' = .next t' ∧ t.readReg x = t'.readReg x ∧
      t.readReg 15 = t'.readReg 15

/-- R109: the source's worked examples, on any two registers that are neither each other nor the flag, and the encoded one. -/
def Obligations.AddWorkedExamples : Prop :=
  (∀ (x y : RegIdx) (s : State), x ≠ y → x ≠ 15 → y ≠ 15 → s.readReg x = 5 → s.readReg y = 10 →
    ∃ t, exec (.add x y) s = .next t ∧ t.readReg x = 15 ∧ t.readReg 15 = 0) ∧
  (∀ (x y : RegIdx) (s : State), x ≠ y → x ≠ 15 → y ≠ 15 → s.readReg x = 250 → s.readReg y = 10 →
    ∃ t, exec (.add x y) s = .next t ∧ t.readReg x = 4 ∧ t.readReg 15 = 1) ∧
  encode (.add 0 1) = 0x8014

/-- 70_reset_and_hazards.md section 3: a register written by one instruction, the carry in register 15 among them, is seen by the
very next: `ADD VX, VY` and then `ADD VZ, VF` adds the first one's carry to register Z. -/
def Obligations.TheNextInstructionSeesTheCarry : Prop :=
  ∀ (x y z : RegIdx) (s : State), s.runState = .running → s.pc.toNat + 3 ≤ 0xFFF → z ≠ x → z ≠ 15 →
    s.mem.readWord s.pc.toNat = encode (.add x y) → s.mem.readWord (s.pc.toNat + 2) = encode (.add z 15) →
    ∃ t u, step s = .next t ∧ step t = .next u ∧
      (u.readReg z).toNat =
        ((s.readReg z).toNat + (if 255 < (s.readReg x).toNat + (s.readReg y).toNat then 1 else 0)) % 256

/-! ### Encoding -/

/-- R61: the four fields of an opcode, each 0 to 15, and that they reconstruct it. -/
def Obligations.FourNibblesReconstructTheOpcode : Prop :=
  ∀ v : Opcode,
    (fieldC v).toNat = (v.toNat >>> 12) &&& 0xF ∧ (fieldX v).toNat = (v.toNat >>> 8) &&& 0xF ∧
    (fieldY v).toNat = (v.toNat >>> 4) &&& 0xF ∧ (fieldD v).toNat = v.toNat &&& 0xF ∧
    (fieldC v).toNat ≤ 15 ∧ (fieldX v).toNat ≤ 15 ∧ (fieldY v).toNat ≤ 15 ∧ (fieldD v).toNat ≤ 15 ∧
    v = fieldC v ++ fieldX v ++ fieldY v ++ fieldD v ∧
    v.toNat = ((fieldC v).toNat <<< 12 ||| (fieldX v).toNat <<< 8 ||| (fieldY v).toNat <<< 4 ||| (fieldD v).toNat)

/-- R64: decoding dispatches on the tuple of nibbles, every other combination is the fault, the match and mask of each row of the
opcode table say the same, and the two patterns are disjoint. -/
def Obligations.DecodingDispatchesOnTheNibbles : Prop :=
  ∀ v : Opcode,
    (decode v = .instr .halt ↔ fieldC v = 0 ∧ fieldX v = 0 ∧ fieldY v = 0 ∧ fieldD v = 0) ∧
    (decode v = .instr .halt ↔ haltRow.admits v = true) ∧ (haltRow.admits v = true ↔ v = 0x0000) ∧
    (∀ x y : RegIdx, decode v = .instr (.add x y) ↔
      fieldC v = 8 ∧ (fieldX v).toNat = x.val ∧ (fieldY v).toNat = y.val ∧ fieldD v = 4) ∧
    ((∃ x y, decode v = .instr (.add x y)) ↔ addRow.admits v = true) ∧
    (decode v = .unimplemented v ↔ haltRow.admits v = false ∧ addRow.admits v = false) ∧
    ¬(haltRow.admits v = true ∧ addRow.admits v = true)

/-- 30_encoding.md sections 4 and 6 (encoding is the inverse of decoding, and every other word is unimplemented): a word decodes to
an instruction exactly when it is that instruction's encoding, for every instruction and operand. -/
def Obligations.DecodeInvertsEncodeBothWays : Prop :=
  (∀ (v : Opcode) (i : Instr), decode v = .instr i ↔ v = encode i) ∧
  (∀ v w : Opcode, decode v = .unimplemented w ↔ w = v ∧ ∀ i : Instr, v ≠ encode i)

/-- 30_encoding.md sections 1 and 6 and 20_memory.md section 3: the same of bytes, big-endian, whatever bytes follow. -/
def Obligations.DecodeBytesInvertsEncodeBytes : Prop :=
  ∀ (bs rest : List Byte) (i : Instr), decodeBytes bs = .ok (i, rest) ↔ bs = encodeBytes i ++ rest

/-- 30_encoding.md section 4, which the spec derives as 65,536 - 1 - 256: the number of illegal words. -/
def Obligations.IllegalWordsNumber65279 : Prop :=
  (Finset.univ.filter fun n : Fin 65536 => decode (BitVec.ofFin n) = .unimplemented (BitVec.ofFin n)).card = 65279

/-- 95_test_vectors.md L2.2: a few words written out from the encoding, and what they decode to. -/
def Obligations.SampleWordsDecodeAsTheTableSays : Prop :=
  decode 0b0000000000000000 = .instr .halt ∧ decode 0b1000000000010100 = .instr (.add 0 1) ∧
  decode 0b1000111111110100 = .instr (.add 15 15) ∧ decode 0b1000001110100100 = .instr (.add 3 10) ∧
  decode 0x00E0 = .unimplemented 0x00E0 ∧ decode 0x0004 = .unimplemented 0x0004 ∧ decode 0x8015 = .unimplemented 0x8015 ∧
  decode 0x7014 = .unimplemented 0x7014 ∧ decode 0x9014 = .unimplemented 0x9014

/-! ### The host -/

/-- R130 (the spec's decisions D7, D18, D19, D20): the eight operations, each accepted only while `run_state != RUNNING`, with the
effect and the result of the table. A write is said by what every byte and every register reads as after it. -/
def Obligations.HostOperationsHaveTheirEffects : Prop :=
  (∀ (op : HostOp) (s : State), s.runState = .running → hostAct op s = .notAccepted) ∧
  (∀ s : State, s.runState ≠ .running →
    (∀ (a : Addr) (b : Byte), s.mem.wf = true → ∃ m, hostAct (.writeMem a b) s = .accepted { s with mem := m } .done ∧
      ∀ c, m.readByte c = if c = a.toNat then b else s.mem.readByte c) ∧
    (∀ a : Addr, hostAct (.readMem a) s = .accepted s (.byte (s.mem.readByte a.toNat))) ∧
    (∀ (i : RegIdx) (b : Byte), ∃ t, hostAct (.writeReg i b) s = .accepted t .done ∧
      (∀ j, t.readReg j = if j = i then b else s.readReg j) ∧ t.pc = s.pc ∧ t.mem = s.mem ∧ t.runState = s.runState ∧
      t.faultCause = s.faultCause ∧ t.faultInfo = s.faultInfo) ∧
    (∀ i : RegIdx, hostAct (.readReg i) s = .accepted s (.byte (s.readReg i))) ∧
    hostAct .readPC s = .accepted s (.pc s.pc) ∧
    hostAct .readStatus s = .accepted s (.status s.status) ∧
    hostAct .start s = .accepted (if s.runState = .faulted then s else { s with runState := .running }) .done ∧
    hostAct .reset s = .accepted State.reset .done)

/-- R131 (the spec's decision D6): Start sets `RUNNING` from `IDLE` and `HALTED` and leaves every other state as it was, so the run
goes on from the current `pc`; it has no effect in `FAULTED`. -/
def Obligations.StartResumesAtThePc : Prop :=
  (∀ s : State, s.runState = .idle ∨ s.runState = .halted →
    hostAct .start s = .accepted { s with runState := .running } .done) ∧
  (∀ s : State, s.runState = .faulted → hostAct .start s = .accepted s .done) ∧
  hostAct .start State.reset = .accepted { State.reset with runState := .running } .done ∧ State.reset.pc = 0

/-- 60_exceptions.md section 3 (the spec's decisions D6, D10): `FAULTED` is left only by reset, and until then the record is
frozen. -/
def Obligations.OnlyResetLeavesFaulted : Prop :=
  ∀ (a : Action) (s t : State), s.runState = .faulted → act a s = some t → a ≠ .host .reset →
    t.runState = .faulted ∧ t.faultCause = s.faultCause ∧ t.faultInfo = s.faultInfo ∧ t.pc = s.pc

/-- 20_memory.md sections 3 and 8: a word the host stores byte by byte, high byte first, is the word a fetch at its address reads,
and the run that Start begins sees it. -/
def Obligations.AWordTheHostStoresIsTheWordFetched : Prop :=
  ∀ (s : State) (a a' : Addr) (w : Opcode), s.mem.wf = true → s.runState = .idle ∨ s.runState = .halted →
    a'.toNat = a.toNat + 1 → s.pc.toNat = a.toNat →
    ∃ t u v, hostAct (.writeMem a (w.extractLsb' 8 8)) s = .accepted t .done ∧
      hostAct (.writeMem a' (w.extractLsb' 0 8)) t = .accepted u .done ∧ hostAct .start u = .accepted v .done ∧
      v.runState = .running ∧ fetch v = some w

/-! ### Memory -/

/-- 20_memory.md sections 1 and 8: no instruction writes memory, so a run of any length leaves every byte of it as it was.
That k steps answer a next state for every k and every state counts the steps held in a stop state, where the spec enables none: it is
the model's own reading (DEDUCED: notes/assumptions/1.md), and no rule of the spec. -/
def Obligations.NoRunChangesMemory : Prop :=
  ∀ (k : Nat) (s : State), ∃ t, runSteps k s = .next t ∧ t.mem = s.mem ∧ ∀ a, t.mem.readByte a = s.mem.readByte a

/-- The model's own representation of memory (notes/assumptions/6.md; 10_state.md section 7): two canonical memories that read alike
at the 4096 addresses are equal data, and a canonical memory holds only those addresses. -/
def Obligations.CanonicalMemoriesThatReadAlikeAreEqual : Prop :=
  (∀ m m' : Memory, m.wf = true → m'.wf = true → (∀ a, a < 4096 → m.readByte a = m'.readByte a) → m = m') ∧
  (∀ (m : Memory) (a : Nat), m.wf = true → 4096 ≤ a → m.readByte a = 0)

/-! ### Invariants and runs -/

/-- The invariant holds at reset (10_state.md sections 2, 5 and 7: the program counter and the run-state record). Its clause that
memory is canonical is the model's own form of memory (DESIGN CHOICE: notes/assumptions/6.md), which no rule of the spec gives. -/
def Obligations.ResetMeetsTheInvariant : Prop := Inv State.reset

/-- 10_state.md sections 2 and 5: a step keeps the invariant: the program counter even and at most 4096, the run-state record
coherent. Its clause that memory is canonical is the model's own form of memory (DESIGN CHOICE: notes/assumptions/6.md), which no rule
of the spec gives. -/
def Obligations.EveryStepKeepsTheInvariant : Prop :=
  ∀ s t : State, Inv s → step s = .next t → Inv t

/-- 10_state.md sections 2 and 5 and 60_exceptions.md section 6: every operation of the host keeps the invariant. Its clause that
memory is canonical is the model's own form of memory (DESIGN CHOICE: notes/assumptions/6.md), which no rule of the spec gives. -/
def Obligations.EveryHostOperationKeepsTheInvariant : Prop :=
  ∀ (op : HostOp) (s t : State) (r : HostReply), Inv s → hostAct op s = .accepted t r → Inv t

/-- 10_state.md sections 2 and 5: every state the machine can come to meets the invariant; an odd program counter, a wrapped one
and an incoherent record are unreachable. The clause that memory is canonical is the model's own form of memory (DESIGN CHOICE:
notes/assumptions/6.md), which no rule of the spec gives. -/
def Obligations.EveryReachableStateMeetsTheInvariant : Prop :=
  ∀ s : State, Reachable s → Inv s

/-- 10_state.md section 2: while a run goes on, the program counter after k steps is 2k past where it stood. -/
def Obligations.PcAfterKStepsOfARun : Prop :=
  ∀ (k : Nat) (s t : State), runSteps k s = .next t → t.runState = .running → t.pc.toNat = s.pc.toNat + 2 * k

/-- 40_control.md section 1 and 60_exceptions.md section 6, which the spec derives: every run ends, in at most
`(4096 - p) / 2 + 1` steps from a start at `pc = p`: the core runs until the k-th step stops it. Stated for every state: the spec says
it for an even p of at most 4096, and the other program counters, which no run reaches, rest on the fetch rule for an odd `pc` (R43,
20_memory.md section 2, the spec's decision D14) and on the model's reading of unreachable states (DEDUCED: notes/assumptions/8.md). -/
def Obligations.EveryRunEndsWithinItsBound : Prop :=
  ∀ s : State, s.runState = .running →
    ∃ k t, 1 ≤ k ∧ k ≤ (4096 - s.pc.toNat) / 2 + 1 ∧ runSteps k s = .next t ∧ Stopped t ∧
      ∀ j, j < k → ∃ u, runSteps j s = .next u ∧ u.runState = .running

/-- The host's way of placing one word (the model's own, notes/assumptions/4.md; 40_control.md section 1): on a canonical memory,
the very next step runs the instruction the decoder reads from the table word. -/
def Obligations.APlacedTableWordRunsNext : Prop :=
  ∀ (s : State) (nbits w : Nat) (i : Instr), s.mem.wf = true → decodeTableWord nbits w = some i →
    step (s.withFetchWord nbits w) = exec i { s.withFetchWord nbits w with pc := (s.withFetchWord nbits w).pc + 2 } ∧
    (∀ r, (s.withFetchWord nbits w).readReg r = s.readReg r)
end

