-- ==== Sys2Proof/Laws/Decode.lean ====
section
/-! SUPPORT. The small laws of the fields, of the encoder and of the decoder's three outcomes. -/

namespace Sys2Proof

@[simp] theorem regOfNibble_nibbleOfReg (i : RegIdx) : regOfNibble (nibbleOfReg i) = i := by
  revert i; decide

@[simp] theorem nibbleOfReg_regOfNibble (n : Nibble) : nibbleOfReg (regOfNibble n) = n := by
  revert n; decide

/-- Every instruction term has an encoding: the operands' type leaves none out. -/
@[simp] theorem wf_true (i : Instr) : i.wf = true := by
  cases i with
  | halt => rfl
  | add x y => simp [Instr.wf]

theorem encode_halt : encode .halt = 0x0000 := rfl

/-- The word of `ADD VX, VY` is its four nibbles, `8`, `X`, `Y`, `4`. -/
theorem encode_add (x y : RegIdx) : encode (.add x y) = (8 : Nibble) ++ nibbleOfReg x ++ nibbleOfReg y ++ (4 : Nibble) := by
  revert x y; decide

/-- Two words with the same four nibbles are the same word. -/
theorem opcode_ext {v w : Opcode} (hc : fieldC v = fieldC w) (hx : fieldX v = fieldX w) (hy : fieldY v = fieldY w)
    (hd : fieldD v = fieldD w) : v = w := by
  simp only [fieldC, fieldX, fieldY, fieldD, BitVec.toNat_eq, BitVec.extractLsb'_toNat, Nat.shiftRight_eq_div_pow] at *
  omega

/-- What the decoder can answer, and on which nibbles. -/
theorem decode_cases (v : Opcode) :
    (decode v = .instr .halt ∧ fieldC v = 0 ∧ fieldX v = 0 ∧ fieldY v = 0 ∧ fieldD v = 0) ∨
    (decode v = .instr (.add (regOfNibble (fieldX v)) (regOfNibble (fieldY v))) ∧ fieldC v = 8 ∧ fieldD v = 4) ∨
    (decode v = .unimplemented v ∧ ¬(fieldC v = 0 ∧ fieldX v = 0 ∧ fieldY v = 0 ∧ fieldD v = 0) ∧
      ¬(fieldC v = 8 ∧ fieldD v = 4)) := by
  unfold decode
  split
  · exact .inl ⟨rfl, ‹_›⟩
  · split
    · exact .inr (.inl ⟨rfl, ‹_›⟩)
    · exact .inr (.inr ⟨rfl, ‹_›, ‹_›⟩)

/-- The fault a word decodes to carries that word. -/
theorem decode_unimplemented {v w : Opcode} (h : decode v = .unimplemented w) : w = v := by
  rcases decode_cases v with ⟨h', -⟩ | ⟨h', -⟩ | ⟨h', -⟩ <;> simp_all

end Sys2Proof
end

