-- ==== Sys2Proof/Laws/State.lean ====
section
/-! SUPPORT. One lemma per field per update of the state, so that no later proof unfolds a record update; and the laws of the
register file. -/

namespace Sys2Proof.Machine

/-! ### A register write -/

@[simp] theorem writeReg_pc (s : State) (i : RegIdx) (v : Byte) : (s.writeReg i v).pc = s.pc := rfl
@[simp] theorem writeReg_mem (s : State) (i : RegIdx) (v : Byte) : (s.writeReg i v).mem = s.mem := rfl
@[simp] theorem writeReg_runState (s : State) (i : RegIdx) (v : Byte) : (s.writeReg i v).runState = s.runState := rfl
@[simp] theorem writeReg_faultCause (s : State) (i : RegIdx) (v : Byte) : (s.writeReg i v).faultCause = s.faultCause := rfl
@[simp] theorem writeReg_faultInfo (s : State) (i : RegIdx) (v : Byte) : (s.writeReg i v).faultInfo = s.faultInfo := rfl

/-- Reading the register file after a write (R20): no register is hardwired and none shares storage with another. -/
@[simp] theorem readReg_writeReg (s : State) (i j : RegIdx) (v : Byte) :
    (s.writeReg i v).readReg j = if j = i then v else s.readReg j := by
  simp only [State.readReg, State.writeReg, Vector.get_eq_getElem, Vector.getElem_set]
  by_cases h : j = i
  · simp [h]
  · rw [if_neg h, if_neg fun e => h (Fin.ext e.symm)]

/-- Two register files that read alike are the same. -/
theorem regs_ext {s t : State} (h : ∀ i, s.readReg i = t.readReg i) : s.regs = t.regs := by
  ext i hi : 1
  simpa [State.readReg, Vector.get_eq_getElem] using h ⟨i, hi⟩

@[simp] theorem readReg_reset (i : RegIdx) : State.reset.readReg i = 0 := by
  simp [State.readReg, State.reset, Vector.get_eq_getElem]

/-! ### The two writes of an ALU operation -/

@[simp] theorem writeResultThenFlag_pc (s : State) (x : RegIdx) (r f : Byte) : (writeResultThenFlag x r f s).pc = s.pc := rfl
@[simp] theorem writeResultThenFlag_mem (s : State) (x : RegIdx) (r f : Byte) : (writeResultThenFlag x r f s).mem = s.mem := rfl
@[simp] theorem writeResultThenFlag_runState (s : State) (x : RegIdx) (r f : Byte) :
    (writeResultThenFlag x r f s).runState = s.runState := rfl
@[simp] theorem writeResultThenFlag_faultCause (s : State) (x : RegIdx) (r f : Byte) :
    (writeResultThenFlag x r f s).faultCause = s.faultCause := rfl
@[simp] theorem writeResultThenFlag_faultInfo (s : State) (x : RegIdx) (r f : Byte) :
    (writeResultThenFlag x r f s).faultInfo = s.faultInfo := rfl

/-- The flag is the later write (R16). -/
@[simp] theorem readReg_writeResultThenFlag (s : State) (x j : RegIdx) (r f : Byte) :
    (writeResultThenFlag x r f s).readReg j = if j = Config.flagReg then f else if j = x then r else s.readReg j := by
  simp [writeResultThenFlag]

/-! ### The advance -/

@[simp] theorem advance_pc (s : State) : (advance s).pc = s.pc + 2 := rfl
@[simp] theorem advance_mem (s : State) : (advance s).mem = s.mem := rfl
@[simp] theorem advance_regs (s : State) : (advance s).regs = s.regs := rfl
@[simp] theorem advance_readReg (s : State) (i : RegIdx) : (advance s).readReg i = s.readReg i := rfl
@[simp] theorem advance_runState (s : State) : (advance s).runState = s.runState := rfl
@[simp] theorem advance_faultCause (s : State) : (advance s).faultCause = s.faultCause := rfl
@[simp] theorem advance_faultInfo (s : State) : (advance s).faultInfo = s.faultInfo := rfl

/-! ### Taking a fault, and stopping on HALT -/

@[simp] theorem raise_pc (e : Exc) (n : BitVec 16) (s : State) : (raise e n s).pc = s.pc := rfl
@[simp] theorem raise_mem (e : Exc) (n : BitVec 16) (s : State) : (raise e n s).mem = s.mem := rfl
@[simp] theorem raise_regs (e : Exc) (n : BitVec 16) (s : State) : (raise e n s).regs = s.regs := rfl
@[simp] theorem raise_readReg (e : Exc) (n : BitVec 16) (s : State) (i : RegIdx) : (raise e n s).readReg i = s.readReg i := rfl
@[simp] theorem raise_runState (e : Exc) (n : BitVec 16) (s : State) : (raise e n s).runState = .faulted := rfl
@[simp] theorem raise_faultCause (e : Exc) (n : BitVec 16) (s : State) : (raise e n s).faultCause = e.cause := rfl
@[simp] theorem raise_faultInfo (e : Exc) (n : BitVec 16) (s : State) : (raise e n s).faultInfo = n := rfl

@[simp] theorem stopHalted_pc (s : State) : (stopHalted s).pc = s.pc := rfl
@[simp] theorem stopHalted_mem (s : State) : (stopHalted s).mem = s.mem := rfl
@[simp] theorem stopHalted_regs (s : State) : (stopHalted s).regs = s.regs := rfl
@[simp] theorem stopHalted_readReg (s : State) (i : RegIdx) : (stopHalted s).readReg i = s.readReg i := rfl
@[simp] theorem stopHalted_runState (s : State) : (stopHalted s).runState = .halted := rfl
@[simp] theorem stopHalted_faultCause (s : State) : (stopHalted s).faultCause = s.faultCause := rfl
@[simp] theorem stopHalted_faultInfo (s : State) : (stopHalted s).faultInfo = s.faultInfo := rfl

/-! ### The host's operations -/

@[simp] theorem hostWriteMem_pc (a : Addr) (b : Byte) (s : State) : (hostWriteMem a b s).pc = s.pc := rfl
@[simp] theorem hostWriteMem_mem (a : Addr) (b : Byte) (s : State) : (hostWriteMem a b s).mem = s.mem.writeByte a.toNat b := rfl
@[simp] theorem hostWriteMem_regs (a : Addr) (b : Byte) (s : State) : (hostWriteMem a b s).regs = s.regs := rfl
@[simp] theorem hostWriteMem_readReg (a : Addr) (b : Byte) (s : State) (i : RegIdx) :
    (hostWriteMem a b s).readReg i = s.readReg i := rfl
@[simp] theorem hostWriteMem_runState (a : Addr) (b : Byte) (s : State) : (hostWriteMem a b s).runState = s.runState := rfl
@[simp] theorem hostWriteMem_faultCause (a : Addr) (b : Byte) (s : State) : (hostWriteMem a b s).faultCause = s.faultCause := rfl
@[simp] theorem hostWriteMem_faultInfo (a : Addr) (b : Byte) (s : State) : (hostWriteMem a b s).faultInfo = s.faultInfo := rfl

@[simp] theorem hostStart_pc (s : State) : (hostStart s).pc = s.pc := by unfold hostStart; split <;> rfl
@[simp] theorem hostStart_mem (s : State) : (hostStart s).mem = s.mem := by unfold hostStart; split <;> rfl
@[simp] theorem hostStart_regs (s : State) : (hostStart s).regs = s.regs := by unfold hostStart; split <;> rfl
@[simp] theorem hostStart_faultCause (s : State) : (hostStart s).faultCause = s.faultCause := by unfold hostStart; split <;> rfl
@[simp] theorem hostStart_faultInfo (s : State) : (hostStart s).faultInfo = s.faultInfo := by unfold hostStart; split <;> rfl

/-- Start leaves the core running unless it has faulted (R131). -/
@[simp] theorem hostStart_runState (s : State) :
    (hostStart s).runState = if s.runState = .faulted then .faulted else .running := by
  unfold hostStart; split <;> simp [*]

/-! ### Placing a word -/

@[simp] theorem placeWord_pc (v : Opcode) (s : State) : (placeWord v s).pc = placePc s := rfl
@[simp] theorem placeWord_mem (v : Opcode) (s : State) : (placeWord v s).mem = s.mem.writeWord (placePc s).toNat v := rfl
@[simp] theorem placeWord_regs (v : Opcode) (s : State) : (placeWord v s).regs = s.regs := rfl
@[simp] theorem placeWord_runState (v : Opcode) (s : State) : (placeWord v s).runState = .running := rfl
@[simp] theorem placeWord_faultCause (v : Opcode) (s : State) : (placeWord v s).faultCause = s.faultCause := rfl
@[simp] theorem placeWord_faultInfo (v : Opcode) (s : State) : (placeWord v s).faultInfo = s.faultInfo := rfl

/-- Two states whose fields read alike are the same. -/
theorem state_ext {s t : State} (hr : ∀ i, s.readReg i = t.readReg i) (hp : s.pc = t.pc) (hm : s.mem = t.mem)
    (hs : s.runState = t.runState) (hc : s.faultCause = t.faultCause) (hi : s.faultInfo = t.faultInfo) : s = t := by
  have h := regs_ext hr
  cases s; cases t; simp_all

end Sys2Proof.Machine
end

