-- ==== Sys2Proof/Laws/Exec.lean ====
section
/-! SUPPORT. One law per meaning, and the arithmetic of the adder. -/

namespace Sys2Proof.Machine

/-- The nine bits hold the exact sum. -/
theorem exactSum_toNat (a b : Byte) : (exactSum a b).toNat = a.toNat + b.toNat := by
  simp only [exactSum, BitVec.toNat_add, BitVec.toNat_setWidth]
  omega

/-- The wrapped sum is the sum modulo 256 (R101). -/
theorem sumByte_toNat (a b : Byte) : (sumByte (exactSum a b)).toNat = (a.toNat + b.toNat) % 256 := by
  simp [sumByte, exactSum_toNat]

/-- The carry is 1 exactly when the exact sum exceeds 255 (R101, R104). -/
theorem carryByte_exactSum (a b : Byte) : carryByte (exactSum a b) = if 255 < a.toNat + b.toNat then 1 else 0 := by
  apply BitVec.eq_of_toNat_eq
  simp only [carryByte, BitVec.toNat_setWidth, BitVec.extractLsb'_toNat, exactSum_toNat, Nat.shiftRight_eq_div_pow]
  split <;> simp <;> omega

/-- The meaning of HALT (R89). -/
@[simp] theorem exec_halt (s : State) : exec .halt s = .next (stopHalted s) := rfl

/-- The meaning of ADD (R103). -/
@[simp] theorem exec_add (x y : RegIdx) (s : State) :
    exec (.add x y) s = .next (writeResultThenFlag x (sumByte (exactSum (s.readReg x) (s.readReg y)))
      (carryByte (exactSum (s.readReg x) (s.readReg y))) s) := rfl

end Sys2Proof.Machine
end

