-- ==== Sys2Proof/Laws/Memory.lean ====
section
/-! SUPPORT. The laws of memory: what a byte reads as after a write, and that every operation keeps the canonical form. -/

namespace Sys2Proof.Machine

@[simp] theorem readByte_nil (a : Nat) : Memory.readByte [] a = 0 := rfl

theorem wfFrom_cons {lo a : Nat} {b : Byte} {m : Memory} :
    Memory.wfFrom lo ((a, b) :: m) = true ↔ lo ≤ a ∧ a < 4096 ∧ b ≠ 0 ∧ Memory.wfFrom (a + 1) m = true := by
  simp [Memory.wfFrom, and_assoc]

/-- A canonical list whose addresses start at `lo` is one whose addresses start at any lower bound. -/
theorem wfFrom_mono {lo lo' : Nat} {m : Memory} (h : Memory.wfFrom lo m = true) (hle : lo' ≤ lo) :
    Memory.wfFrom lo' m = true := by
  cases m with
  | nil => rfl
  | cons c m => obtain ⟨h1, h2⟩ := wfFrom_cons.mp h; exact wfFrom_cons.mpr ⟨by omega, h2⟩

/-- Below its first address a canonical list reads as unlisted. -/
theorem readByte_below {lo a : Nat} {m : Memory} (h : Memory.wfFrom lo m = true) (ha : a < lo) : m.readByte a = 0 := by
  induction m generalizing lo with
  | nil => rfl
  | cons c m ih =>
    obtain ⟨h1, -, -, h4⟩ := wfFrom_cons.mp h
    rw [Memory.readByte, if_neg (by omega)]
    exact ih h4 (by omega)

/-- Above the address space a canonical list reads as unlisted. -/
theorem readByte_beyond {lo a : Nat} {m : Memory} (h : Memory.wfFrom lo m = true) (ha : 4096 ≤ a) : m.readByte a = 0 := by
  induction m generalizing lo with
  | nil => rfl
  | cons c m ih =>
    obtain ⟨-, h2, -, h4⟩ := wfFrom_cons.mp h
    rw [Memory.readByte, if_neg (by omega)]
    exact ih h4

theorem readByte_cons (a : Nat) (b : Byte) (m : Memory) (c : Nat) :
    Memory.readByte ((a, b) :: m) c = if c = a then b else Memory.readByte m c := rfl

/-- Reading after an entry is put before a list that did not hold its address. -/
theorem readByte_consByte {a : Nat} {m : Memory} (h : Memory.readByte m a = 0) (b : Byte) (c : Nat) :
    (Memory.consByte a b m).readByte c = if c = a then b else Memory.readByte m c := by
  unfold Memory.consByte
  split
  · split
    · subst_vars; exact h
    · rfl
  · rfl

theorem wfFrom_consByte {lo a : Nat} {m : Memory} (h : Memory.wfFrom (a + 1) m = true) (hlo : lo ≤ a) (ha : a < 4096)
    (b : Byte) : Memory.wfFrom lo (Memory.consByte a b m) = true := by
  unfold Memory.consByte
  split
  · exact wfFrom_mono h (by omega)
  · exact wfFrom_cons.mpr ⟨hlo, ha, ‹_›, h⟩

/-- Read after write: the byte written, and every other byte as before. -/
theorem readByte_writeByte_from {lo : Nat} {m : Memory} (h : Memory.wfFrom lo m = true) (a c : Nat) (b : Byte) :
    (Memory.writeByte m a b).readByte c = if c = a then b else Memory.readByte m c := by
  induction m generalizing lo with
  | nil => exact readByte_consByte rfl b c
  | cons e m ih =>
    obtain ⟨a', b'⟩ := e
    obtain ⟨h1, h2, h3, h4⟩ := wfFrom_cons.mp h
    have tail : Memory.readByte m a' = 0 := readByte_below h4 (by omega)
    simp only [Memory.writeByte]
    split
    · refine readByte_consByte ?_ b c
      exact readByte_below (lo := a') (wfFrom_cons.mpr ⟨Nat.le_refl _, h2, h3, h4⟩) ‹_›
    · split
      · subst_vars
        rw [readByte_consByte tail, readByte_cons]
        split <;> rfl
      · rw [readByte_cons, readByte_cons, ih h4]
        by_cases hc : c = a'
        · rw [if_pos hc, if_neg (by omega), if_pos hc]
        · rw [if_neg hc, if_neg hc]

theorem readByte_writeByte {m : Memory} (h : m.wf = true) (a c : Nat) (b : Byte) :
    (m.writeByte a b).readByte c = if c = a then b else m.readByte c :=
  readByte_writeByte_from h a c b

/-- A write inside the address space keeps the canonical form. -/
theorem wfFrom_writeByte {lo a : Nat} {m : Memory} (h : Memory.wfFrom lo m = true) (hlo : lo ≤ a) (ha : a < 4096) (b : Byte) :
    Memory.wfFrom lo (m.writeByte a b) = true := by
  induction m generalizing lo with
  | nil => exact wfFrom_consByte rfl hlo ha b
  | cons e m ih =>
    obtain ⟨a', b'⟩ := e
    obtain ⟨h1, h2, h3, h4⟩ := wfFrom_cons.mp h
    simp only [Memory.writeByte]
    split
    · exact wfFrom_consByte (wfFrom_cons.mpr ⟨by omega, h2, h3, h4⟩) hlo ha b
    · split
      · subst_vars; exact wfFrom_consByte h4 hlo ha b
      · exact wfFrom_cons.mpr ⟨h1, h2, h3, ih h4 (by omega)⟩

theorem wf_writeByte {a : Nat} {m : Memory} (h : m.wf = true) (ha : a < 4096) (b : Byte) : (m.writeByte a b).wf = true :=
  wfFrom_writeByte h (Nat.zero_le a) ha b

/-- A word stored inside the address space keeps the canonical form. -/
theorem wf_writeWord {a : Nat} {m : Memory} (h : m.wf = true) (ha : a + 1 < 4096) (v : Opcode) : (m.writeWord a v).wf = true :=
  wf_writeByte (wf_writeByte h (by omega) _) ha _

@[simp] theorem wordOfBytes_high_low (v : Opcode) : wordOfBytes (highByte v) (lowByte v) = v := by
  apply BitVec.eq_of_getLsbD_eq
  intro i hi
  simp only [wordOfBytes, highByte, lowByte, BitVec.getLsbD_append, BitVec.getLsbD_extractLsb']
  split
  · simp_all
  · simp_all
    omega

/-- A word stored is the word read back. -/
theorem readWord_writeWord {m : Memory} (h : m.wf = true) {a : Nat} (ha : a < 4096) (v : Opcode) :
    (m.writeWord a v).readWord a = v := by
  have h' := wf_writeByte h ha (highByte v)
  rw [Memory.readWord, Memory.writeWord, readByte_writeByte h', readByte_writeByte h', readByte_writeByte h]
  simp

/-- Every address the host can give is one of memory's: there is no hole and nothing beyond (R8, R48). -/
theorem addr_lt_memSize (a : Addr) : a.toNat < Config.memSize := a.isLt

/-- A byte the host writes keeps the canonical form, whatever the address. -/
theorem wf_writeByte_addr {m : Memory} (h : m.wf = true) (a : Addr) (b : Byte) : (m.writeByte a.toNat b).wf = true :=
  wf_writeByte h (addr_lt_memSize a) b

theorem wf_reset : State.reset.mem.wf = true := rfl

end Sys2Proof.Machine
end

