-- ==== Sys2Proof/Laws/PerInstr.lean ====
section
/-! SUPPORT. What is said of every instruction as syntax, one lemma per constructor.
`OneRow`: an instruction's word is one of its own opcode-table row and of no other row. -/

namespace Sys2Proof.Laws.OneRow

/-- The word of the instruction is admitted by the row of the table its constructor stands for, and by that row alone. -/
def Statement (i : Instr) : Prop :=
  (rowOf i).admits (encode i) = true ∧ ∀ r ∈ [haltRow, addRow], r.admits (encode i) = true → r = rowOf i

theorem halt : Statement .halt := by unfold Statement; decide

theorem add (x y : RegIdx) : Statement (.add x y) := by
  unfold Statement
  revert x y
  decide

end Sys2Proof.Laws.OneRow
end

