-- ==== Sys2Proof/Laws/Step.lean ====
section
/-! SUPPORT. What a step, an operation of the host and an action can do, each said once; and how runs unfold. -/

namespace Sys2Proof.Machine

/-! ### The fetch -/

theorem fetch_in {s : State} (h : s.pc.toNat + 1 ≤ 0xFFF) : fetch s = some (s.mem.readWord s.pc.toNat) := by
  simp [fetch, State.fetchInBounds, h]

theorem fetch_out {s : State} (h : 0xFFF < s.pc.toNat + 1) : fetch s = none := by
  simp only [fetch, State.fetchInBounds, decide_eq_true_eq]
  rw [if_neg (by omega)]

theorem fetch_some_iff {s : State} {v : Opcode} : fetch s = some v ↔ s.pc.toNat + 1 ≤ 0xFFF ∧ s.mem.readWord s.pc.toNat = v := by
  simp [fetch, State.fetchInBounds]

theorem fetch_none_iff {s : State} : fetch s = none ↔ 0xFFF < s.pc.toNat + 1 := by
  simp [fetch, State.fetchInBounds]

/-- After a fetch the advance cannot wrap (R82). -/
theorem advance_pc_toNat {s : State} {v : Opcode} (h : fetch s = some v) : (s.pc + 2).toNat = s.pc.toNat + 2 := by
  have := (fetch_some_iff.mp h).1
  rw [BitVec.toNat_add]
  simp
  omega

/-! ### The step -/

theorem step_of_running {s : State} (h : s.runState = .running) : step s = runCycle s := by
  simp [step, cycle, h]

/-- Everything a step can do. -/
theorem step_cases {s t : State} (h : step s = .next t) :
    (s.runState ≠ .running ∧ t = s) ∨
    (s.runState = .running ∧ fetch s = none ∧ t = raiseFetchOutOfBounds s) ∨
    (∃ v, s.runState = .running ∧ fetch s = some v ∧ decode v = .instr .halt ∧ t = stopHalted (advance s)) ∨
    (∃ v x y, s.runState = .running ∧ fetch s = some v ∧ decode v = .instr (.add x y) ∧
      t = writeResultThenFlag x (sumByte (exactSum (s.readReg x) (s.readReg y)))
        (carryByte (exactSum (s.readReg x) (s.readReg y))) (advance s)) ∨
    (∃ v, s.runState = .running ∧ fetch s = some v ∧ decode v = .unimplemented v ∧
      t = raiseUnimplementedOpcode v (advance s)) := by
  by_cases hr : s.runState = .running
  · rw [step_of_running hr, runCycle] at h
    cases hf : fetch s with
    | none => simp [hf] at h; exact .inr (.inl ⟨hr, rfl, h.symm⟩)
    | some v =>
      simp only [hf, dispatchWord] at h
      cases hd : decode v with
      | instr i =>
        cases i with
        | halt => simp [hd] at h; exact .inr (.inr (.inl ⟨v, hr, rfl, hd, h.symm⟩))
        | add x y => simp [hd] at h; exact .inr (.inr (.inr (.inl ⟨v, x, y, hr, rfl, hd, h.symm⟩)))
      | unimplemented w =>
        obtain rfl := decode_unimplemented hd
        simp [hd] at h
        exact .inr (.inr (.inr (.inr ⟨_, hr, rfl, hd, h.symm⟩)))
  · left
    refine ⟨hr, ?_⟩
    unfold step cycle at h
    split at h <;> simp_all

/-! ### The host and the actions -/

/-- An accepted operation: the core is not running. -/
theorem hostAct_accepted {op : HostOp} {s t : State} {r : HostReply} (h : hostAct op s = .accepted t r) :
    s.runState ≠ .running ∧ t = hostEffect op s ∧ r = hostReply op s := by
  unfold hostAct at h
  split at h
  · cases h
  · cases h; exact ⟨‹_›, rfl, rfl⟩

/-- Everything an action can do. -/
theorem act_cases {a : Action} {s t : State} (h : act a s = some t) :
    (a = .core ∧ s.runState = .running ∧ step s = .next t) ∨
    (∃ op, a = .host op ∧ s.runState ≠ .running ∧ t = hostEffect op s) := by
  cases a with
  | core =>
    simp only [act, coreEnabled, decide_eq_true_eq] at h
    split at h
    · left
      split at h
      · cases h; exact ⟨rfl, ‹_›, ‹_›⟩
      · cases h
      · cases h
    · cases h
  | host op =>
    right
    simp only [act] at h
    split at h
    · rename_i t' r h'
      cases h
      exact ⟨op, rfl, (hostAct_accepted h').1, (hostAct_accepted h').2.1⟩
    · cases h

/-! ### Runs -/

@[simp] theorem runSteps_zero (s : State) : runSteps 0 s = .next s := rfl

/-- A run of one step more, on any machine. -/
theorem run_succ (M : Host.Core) (k : Nat) {s t : M.State} (h : M.step s = .next t) : M.run (k + 1) s = M.run k t := by
  simp only [Host.Core.run, h]

theorem runSteps_succ {s t : State} (k : Nat) (h : step s = .next t) : runSteps (k + 1) s = runSteps k t :=
  run_succ Sys2Proof.core k h

/-- The invariants of every reachable state come from two facts: reset has it, and every action keeps it. -/
theorem Reachable.induction {P : State → Prop} (h0 : P State.reset) (hstep : ∀ a s t, P s → act a s = some t → P t)
    {s : State} (h : Reachable s) : P s := by
  induction h with
  | reset => exact h0
  | next a _ ha ih => exact hstep a _ _ ih ha

end Sys2Proof.Machine
end

