-- ==== Sys2Proof/Tests/Slice0.lean ====
section
/-! SUPPORT. Tests of the model, with the expected results taken from spec/95_test_vectors.md and the rules it cites, and for each
statement with hypotheses a state and operands that meet them. -/

namespace Sys2Proof.Machine.Tests

/-- A state with the given program counter, memory, run state and registers, every register not listed 0. -/
def stateOf (p : Pc) (m : Memory) (r : RunState) (rs : List (RegIdx × Byte)) : State :=
  rs.foldl (fun s e => s.writeReg e.1 e.2) { State.reset with pc := p, mem := m, runState := r }

/-- A field of the state an outcome leaves. -/
def after {α : Type} (f : State → α) (o : Host.Outcome State Fault Refusal) : Option α :=
  match o with
  | .next s => some (f s)
  | .fault _ => none
  | .refused _ => none

/-- A faulted state, as the fault F3 of L2.1 leaves it. -/
def faultedState : State := raise .unimplementedOpcode 0x1234 (stateOf 0x1000 [(0xFFE, 0x12), (0xFFF, 0x34)] .running [])

/-! ### The checks of WellFormed refuse what they should -/

/-- Index 16 does not fit a 4-bit field (R62): no operand has it. -/
theorem test_wf_no_register_16 : ∀ i : RegIdx, i.val ≠ 16 := by decide

/-- Register 15 as the accumulator (R22). -/
theorem test_sparesFlag_refuses_vf_destination : (Instr.add 15 2).sparesFlag = false := by decide

theorem test_sparesFlag_accepts_vf_source : (Instr.add 1 15).sparesFlag = true ∧ Instr.halt.sparesFlag = true := by decide

/-! ### Decoding: words written out bit by bit from R61 and R64 (C, X, Y, D) -/

theorem test_decode_halt : decode (0b0000#4 ++ 0b0000#4 ++ 0b0000#4 ++ 0b0000#4) = .instr .halt := by decide

/-- L2.2 E2, and R72's example. -/
theorem test_decode_add_v0_v1 : decode (0b1000#4 ++ 0b0000#4 ++ 0b0001#4 ++ 0b0100#4) = .instr (.add 0 1) := by decide

/-- X and Y are not exchanged. -/
theorem test_decode_add_ve_vd : decode (0b1000#4 ++ 0b1110#4 ++ 0b1101#4 ++ 0b0100#4) = .instr (.add 14 13) := by decide

/-- L2.2 E5, E8, E10, E13 and E18. -/
theorem test_decode_rejects : decode 0x00E0 = .unimplemented 0x00E0 ∧ decode 0x0004 = .unimplemented 0x0004 ∧
    decode 0x1234 = .unimplemented 0x1234 ∧ decode 0x8015 = .unimplemented 0x8015 ∧ decode 0xFFFF = .unimplemented 0xFFFF := by
  decide

theorem test_decodeBytes_too_few : decodeBytes [0x80] = .error .tooFewBytes ∧ decodeBytes [] = .error .tooFewBytes := ⟨rfl, rfl⟩

/-- L2.2 E5, as bytes. -/
theorem test_decodeBytes_unimplemented : decodeBytes [0x00, 0xE0] = .error (.unimplementedOpcode 0x00E0) := rfl

theorem test_decodeTableWord : decodeTableWord 16 0x8014 = some (.add 0 1) ∧ decodeTableWord 16 0 = some .halt ∧
    decodeTableWord 16 0x00E0 = none := by decide

/-! ### One step -/

/-- L2.3 A16: 0xFF + 0x01 on register 15 as the source. -/
theorem test_add_v1_vf : after (fun t => (t.pc, t.readReg 1, t.readReg 15))
    (step (stateOf 0 [(0, 0x81), (1, 0xF4)] .running [(1, 0xFF), (15, 0x01)])) = some (2, 0x00, 1) := by decide

/-- L2.3 A19: register 15 as the destination. -/
theorem test_add_vf_v2 : after (fun t => (t.readReg 15, t.readReg 2))
    (step (stateOf 0 [(0, 0x8F), (1, 0x24)] .running [(15, 0x80), (2, 0x90)])) = some (1, 0x90) := by decide

/-- L2.4 H2: HALT at 4094. -/
theorem test_halt_at_the_top : after (fun t => (t.pc, t.status)) (step (stateOf 0xFFE [] .running [])) =
    some (0x1000, 0x00000002) := by decide

/-- R92. -/
theorem test_halt_keeps_registers : after (fun t => (t.pc, t.readReg 0)) (step (stateOf 6 [] .running [(0, 35)])) =
    some (8, 35) := by decide

/-- L2.1 F3. -/
theorem test_unimplemented_at_the_top : after (fun t => (t.pc, t.status))
    (step (stateOf 0xFFE [(0xFFE, 0x12), (0xFFF, 0x34)] .running [])) = some (0x1000, 0x12340007) := by decide

/-- L2.1 F4. -/
theorem test_fetch_out_of_bounds : after (fun t => (t.pc, t.status)) (step (stateOf 0x1000 [] .running [])) =
    some (0x1000, 0x1000000B) := by decide

/-- L2.1 F5: a word stored big-endian; and a byte set back to 0 leaves no entry. -/
theorem test_writeWord : Memory.writeWord [] 0x010 0x8024 = [(0x010, 0x80), (0x011, 0x24)] ∧
    Memory.writeByte [(0x010, 0x80)] 0x010 0 = [] := by decide

/-- L2.4 H4: Start has no effect after a fault. -/
theorem test_start_after_fault : hostAct .start faultedState = .accepted faultedState .done := rfl

/-- A list that is out of order, holds an address outside memory, or holds a byte that reads as unlisted, is not canonical. -/
theorem test_memory_wf_refuses : Memory.wf [(1, 1), (0, 1)] = false ∧ Memory.wf [(4096, 1)] = false ∧ Memory.wf [(0, 0)] = false := by
  decide

/-! ### Witnesses: states and operands that meet the hypotheses of the statements -/

theorem witness_ResetSetsEveryPieceOfState :
    State.reset.runState ≠ .running ∧ faultedState.runState ≠ .running ∧ (stateOf 0 [] .running []).runState = .running ∧
    (4095 : Nat) < 4096 := by decide

theorem witness_StatusWordLaysOutTheRunStateRecord :
    State.reset.runState ≠ .running ∧ ∃ t r, hostAct (.writeMem 0xFFF 1) State.reset = .accepted t r ∧
      HostOp.writeMem 0xFFF 1 ≠ .start ∧ HostOp.writeMem 0xFFF 1 ≠ .reset :=
  ⟨by decide, _, _, rfl, by decide, by decide⟩

theorem witness_RunStateRecordChangesOnlyByStepStartAndReset :
    (∃ t, act .core (stateOf 0 [] .running []) = some t ∧ RunState.running ≠ t.runState) ∧
    (∃ t, act (.host .start) State.reset = some t ∧ RunState.idle ≠ t.runState) ∧
    (∃ t, act (.host .reset) faultedState = some t ∧ faultedState.faultCause ≠ .none ∧ t.faultCause = .none) ∧
    ((∀ r, (stateOf 0 [] .running []).readReg r = State.reset.readReg r) ∧ (stateOf 0 [] .running []).pc = State.reset.pc ∧
      (stateOf 0 [] .running []).mem = State.reset.mem) :=
  ⟨⟨_, rfl, by decide⟩, ⟨_, rfl, by decide⟩, ⟨_, rfl, by decide, by decide⟩, by decide, rfl, rfl⟩

theorem witness_FetchReadsTheWordHighByteFirst :
    (stateOf 4094 [] .running []).pc.toNat + 1 ≤ 0xFFF ∧ fetch (stateOf 4094 [] .running []) = some 0 ∧
    ∃ s : State, s.pc.toNat + 1 ≤ 0xFFF ∧ s.mem.readByte s.pc.toNat = 0x80 ∧ s.mem.readByte (s.pc.toNat + 1) = 0x14 :=
  ⟨by decide, by decide, stateOf 0 [(0, 0x80), (1, 0x14)] .idle [], by decide, by decide, by decide⟩

/-- Every even program counter is reached, on empty memory, by halting and starting again. -/
theorem reachable_halted (n : Nat) (h : n + 1 ≤ 2048) :
    ∃ s, Reachable s ∧ s.runState = .halted ∧ s.pc.toNat = 2 * (n + 1) ∧ s.mem = [] := by
  have go : ∀ s : State, Reachable s → s.runState = .running → s.mem = [] → s.pc.toNat + 1 ≤ 0xFFF →
      ∃ t, Reachable t ∧ t.runState = .halted ∧ t.pc.toNat = s.pc.toNat + 2 ∧ t.mem = [] := by
    intro s hs hr hm hp
    have hf : fetch s = some 0 := by simp [fetch_in hp, hm, Memory.readWord, wordOfBytes]
    have hstep : step s = .next (stopHalted (advance s)) := by rw [step_of_running hr, runCycle, hf]; rfl
    refine ⟨stopHalted (advance s), hs.next .core ?_, rfl, advance_pc_toNat hf, hm⟩
    simp [act, coreEnabled, hr, hstep]
  induction n with
  | zero =>
    exact go { State.reset with runState := .running } (Reachable.reset.next (.host .start) rfl) rfl rfl (by decide)
  | succ n ih =>
    obtain ⟨s, h1, h2, h3, h4⟩ := ih (by omega)
    obtain ⟨t, g1, g2, g3, g4⟩ := go { s with runState := .running }
      (h1.next (.host .start) (by simp [act, hostAct, hostEffect, hostStart, h2])) rfl h4 (by show s.pc.toNat + 1 ≤ _; omega)
    exact ⟨t, g1, g2, by rw [g3]; show s.pc.toNat + 2 = _; omega, g4⟩

/-- 4095 and 4096 are both past the end; the reachable one is 4096. -/
theorem witness_FetchPastTheEndRaisesFetchOutOfBounds :
    (0xFFF < (stateOf 4095 [] .running []).pc.toNat + 1 ∧ (stateOf 4095 [] .running []).runState = .running) ∧
    ∃ s, s.runState = .running ∧ 0xFFF < s.pc.toNat + 1 ∧ Reachable s := by
  refine ⟨by decide, ?_⟩
  obtain ⟨s, h1, h2, h3, -⟩ := reachable_halted 2047 (by omega)
  exact ⟨{ s with runState := .running }, rfl, by show _ < s.pc.toNat + 1; omega,
    h1.next (.host .start) (by simp [act, hostAct, hostEffect, hostStart, h2])⟩

theorem witness_UnimplementedOpcodeRaisesItsFault :
    ∃ (s : State) (w : Opcode), s.runState = .running ∧ fetch s = some w ∧ w ≠ 0x0000 ∧ w &&& 0xF00F ≠ 0x8004 ∧ w = 0x00E0 :=
  ⟨stateOf 4094 [(4095, 0xE0)] .running [], 0x00E0, by decide, by decide, by decide, by decide, rfl⟩

theorem witness_StepIsFetchAdvanceDecodeDispatch :
    (stateOf 4094 [] .running []).runState = .running ∧ (stateOf 4095 [] .running []).runState = .running := by decide

theorem witness_StepRunsTheDecodedInstruction :
    ∃ (s : State) (i : Instr) (hi lo : Byte), s.runState = .running ∧ s.pc.toNat + 1 ≤ 0xFFF ∧
      s.mem.readByte s.pc.toNat = hi ∧ s.mem.readByte (s.pc.toNat + 1) = lo ∧ decodeBytes [hi, lo] = .ok (i, []) :=
  ⟨stateOf 4094 [(4094, 0x80), (4095, 0x14)] .running [], .add 0 1, 0x80, 0x14, by decide, by decide, by decide, by decide, rfl⟩

theorem witness_EveryFetchedStepAdvancesThePc :
    ∃ (s : State) (w : Opcode), s.runState = .running ∧ fetch s = some w ∧ s.pc.toNat = 4094 :=
  ⟨stateOf 4094 [] .running [], 0, by decide, by decide, by decide⟩

theorem witness_ARunEndsInOneOfThreeWays :
    (∃ t, act .core (stateOf 0 [] .running []) = some t ∧ t.runState = .halted) ∧
    (∃ t, act .core (stateOf 0 [(0, 0x80), (1, 0x14)] .running []) = some t ∧ t.runState = .running) ∧
    (∃ t, act .core (stateOf 0 [(0, 0x90)] .running []) = some t ∧ t.faultCause = .unimplementedOpcode) ∧
    (∃ t, act .core (stateOf 4096 [] .running []) = some t ∧ t.faultCause = .fetchOutOfBounds) :=
  ⟨⟨_, rfl, by decide⟩, ⟨_, rfl, by decide⟩, ⟨_, rfl, by decide⟩, ⟨_, rfl, by decide⟩⟩

theorem witness_StopStatesHoldAllState :
    State.reset.runState ≠ .running ∧ (stateOf 2 [] .halted []).runState ≠ .running ∧ faultedState.runState ≠ .running := by decide

theorem witness_FaultsArePrecise :
    (∃ t, step (stateOf 0 [(0, 0x90)] .running []) = .next t ∧ t.runState = .faulted ∧ t.faultCause = .unimplementedOpcode) ∧
    (∃ t, step (stateOf 4096 [] .running []) = .next t ∧ t.runState = .faulted ∧ t.faultCause = .fetchOutOfBounds) :=
  ⟨⟨_, rfl, by decide, by decide⟩, ⟨_, rfl, by decide, by decide⟩⟩

theorem witness_HaltEndsTheRunCleanly :
    (stateOf 4094 [] .running []).runState = .running ∧ fetch (stateOf 4094 [] .running []) = some 0x0000 := by decide

theorem witness_HaltFrame : ∃ t, exec .halt (stateOf 2 [] .running [(15, 1)]) = .next t := ⟨_, rfl⟩

theorem witness_StartAfterHaltAtTheTopOfMemoryFaults :
    ∃ s : State, s.runState = .running ∧ s.pc.toNat = 4094 ∧ fetch s = some 0x0000 :=
  ⟨stateOf 4094 [] .running [], by decide, by decide, by decide⟩

/-- With Y neither X nor 15, and X not 15. -/
theorem witness_AddWritesTheWrappedSumAndTheCarry : (14 : RegIdx) ≠ 15 ∧ (13 : RegIdx) ≠ 14 ∧ (13 : RegIdx) ≠ 15 := by decide

theorem witness_AddFrame : ∃ t, exec (.add 14 15) (stateOf 2 [] .running [(14, 0xFF), (15, 1)]) = .next t ∧
    (0 : RegIdx) ≠ 14 ∧ (0 : RegIdx) ≠ 15 := ⟨_, rfl, by decide, by decide⟩

theorem witness_AddToTheFlagRegisterKeepsOnlyTheCarry : (14 : RegIdx) ≠ 15 := by decide

theorem witness_AddOnSharedRegisters : (14 : RegIdx) ≠ 15 := by decide

theorem witness_AddCarryAndResultMakeTheExactSum : (14 : RegIdx) ≠ 15 := by decide

/-- Two states that differ in the old carry alone. -/
theorem witness_AddDependsOnlyOnItsTwoOperands :
    ∃ s s' : State, s.readReg 0 = s'.readReg 0 ∧ s.readReg 1 = s'.readReg 1 ∧ s.readReg 15 ≠ s'.readReg 15 :=
  ⟨stateOf 0 [] .running [(0, 5), (15, 1)], stateOf 0 [] .running [(0, 5)], by decide, by decide, by decide⟩

theorem witness_AddWorkedExamples :
    ((0 : RegIdx) ≠ 1 ∧ (0 : RegIdx) ≠ 15 ∧ (1 : RegIdx) ≠ 15) ∧
    (∃ s : State, s.readReg 0 = 5 ∧ s.readReg 1 = 10) ∧ (∃ s : State, s.readReg 0 = 250 ∧ s.readReg 1 = 10) :=
  ⟨by decide, ⟨stateOf 0 [] .running [(0, 5), (1, 10)], by decide, by decide⟩,
    ⟨stateOf 0 [] .running [(0, 250), (1, 10)], by decide, by decide⟩⟩

/-- The two last words of memory. -/
theorem witness_TheNextInstructionSeesTheCarry :
    ∃ (s : State) (x y z : RegIdx), s.runState = .running ∧ s.pc.toNat + 3 ≤ 0xFFF ∧ z ≠ x ∧ z ≠ 15 ∧
      s.mem.readWord s.pc.toNat = encode (.add x y) ∧ s.mem.readWord (s.pc.toNat + 2) = encode (.add z 15) :=
  ⟨stateOf 4092 [(4092, 0x80), (4093, 0x24), (4094, 0x81), (4095, 0xF4)] .running [], 0, 2, 1, by decide, by decide, by decide,
    by decide, by decide, by decide⟩

theorem witness_HostOperationsHaveTheirEffects :
    State.reset.runState ≠ .running ∧ State.reset.mem.wf = true ∧ faultedState.runState ≠ .running ∧ faultedState.mem.wf = true ∧
    (stateOf 0 [] .running []).runState = .running := by decide

theorem witness_StartResumesAtThePc :
    State.reset.runState = .idle ∧ (stateOf 4096 [] .halted []).runState = .halted ∧ faultedState.runState = .faulted := by decide

theorem witness_OnlyResetLeavesFaulted :
    faultedState.runState = .faulted ∧ (∃ t, act (.host .start) faultedState = some t) ∧
    Action.host .start ≠ .host .reset := ⟨by decide, ⟨_, rfl⟩, by decide⟩

theorem witness_AWordTheHostStoresIsTheWordFetched :
    ∃ (s : State) (a a' : Addr), s.mem.wf = true ∧ s.runState = .halted ∧ a'.toNat = a.toNat + 1 ∧ s.pc.toNat = a.toNat :=
  ⟨stateOf 4094 [(4094, 0x80), (4095, 0x14)] .halted [], 4094, 4095, by decide, by decide, by decide, by decide⟩

theorem witness_CanonicalMemoriesThatReadAlikeAreEqual :
    Memory.wf [(4095, 1)] = true ∧ (∀ a, a < 4096 → Memory.readByte [(4095, 1)] a = Memory.readByte [(4095, 1)] a) ∧
    (4096 : Nat) ≤ 4096 := ⟨by decide, fun _ _ => rfl, by decide⟩

/-- A running state, an ended run and a faulted one meet the invariant, and the running one steps. -/
theorem witness_EveryStepKeepsTheInvariant :
    Inv (stateOf 4096 [] .running []) ∧ Inv (stateOf 4096 [(0, 1)] .halted []) ∧ Inv faultedState ∧
    ∃ t, step (stateOf 4096 [] .running []) = .next t := by
  refine ⟨?_, ?_, ?_, ⟨_, rfl⟩⟩ <;>
    exact ⟨by decide, by decide, by decide, by decide, by decide, by decide, by decide, by decide, by decide, by decide⟩

theorem witness_EveryHostOperationKeepsTheInvariant :
    Inv (stateOf 4096 [(0, 1)] .halted []) ∧
    ∃ t r, hostAct (.writeMem 0xFFF 1) (stateOf 4096 [(0, 1)] .halted []) = .accepted t r :=
  ⟨witness_EveryStepKeepsTheInvariant.2.1, _, _, rfl⟩

theorem witness_EveryReachableStateMeetsTheInvariant : ∃ s, Reachable s ∧ s.runState = .running :=
  ⟨_, Reachable.reset.next (.host .start) rfl, rfl⟩

theorem witness_PcAfterKStepsOfARun :
    ∃ (s t : State), runSteps 1 s = .next t ∧ t.runState = .running :=
  ⟨stateOf 4094 [(4094, 0x80), (4095, 0x14)] .running [], _, rfl, by decide⟩

theorem witness_EveryRunEndsWithinItsBound : (stateOf 0 [] .running []).runState = .running := by decide

theorem witness_APlacedTableWordRunsNext :
    State.reset.mem.wf = true ∧ decodeTableWord 16 0x8014 = some (.add 0 1) ∧ decodeTableWord 16 0 = some .halt := by decide

/-- The placed word is the first instruction run after reset. -/
theorem test_withFetchWord_runs : after (fun t => (t.pc, t.readReg 0, t.readReg 15, t.runState))
    (step ((State.reset.writeReg 0 250).writeReg 1 10 |>.withFetchWord 16 0x8014)) = some (2, 4, 1, .running) := by decide

end Sys2Proof.Machine.Tests
end

section
/-! SUPPORT. The run-state record as a whole (10_state.md section 5): what STATUS shows of it, what a step, an operation of the
host and an action can do to it, and that no instruction sees it. At the end, the two statements about it. -/

open Sys2Proof Sys2Proof.Machine

namespace Sys2Proof.Machine

/-! ### The fields of STATUS (R34) -/

@[simp] theorem status_runState_bits (s : State) : s.status.extractLsb' 0 2 = s.runState.code :=
  BitVec.extractLsb'_append_eq_right

@[simp] theorem status_faultCause_bits (s : State) : s.status.extractLsb' 2 2 = s.faultCause.code := by
  rw [State.status, BitVec.extractLsb'_append_eq_of_le (by decide)]
  exact BitVec.extractLsb'_append_eq_right

@[simp] theorem status_zero_bits (s : State) : s.status.extractLsb' 4 12 = 0 := by
  rw [State.status, BitVec.extractLsb'_append_eq_of_le (by decide), BitVec.extractLsb'_append_eq_of_le (by decide)]
  exact BitVec.extractLsb'_append_eq_right

@[simp] theorem status_faultInfo_bits (s : State) : s.status.extractLsb' 16 16 = s.faultInfo := by
  rw [State.status, BitVec.extractLsb'_append_eq_of_le (by decide), BitVec.extractLsb'_append_eq_of_le (by decide)]
  exact BitVec.extractLsb'_append_eq_left

/-! ### What changes the record (R33) -/

/-- The three fields of the run-state record are the same in both states. -/
structure SameRecord (s t : State) : Prop where
  runState : s.runState = t.runState
  faultCause : s.faultCause = t.faultCause
  faultInfo : s.faultInfo = t.faultInfo

theorem SameRecord.refl (s : State) : SameRecord s s := ⟨rfl, rfl, rfl⟩

/-- STATUS is a function of the record alone. -/
theorem SameRecord.status_eq {s t : State} (h : SameRecord s t) : s.status = t.status := by
  simp only [State.status, h.runState, h.faultCause, h.faultInfo]

/-- Every operation of the host but Start and Reset leaves the record as it was (R130). -/
theorem sameRecord_hostEffect {op : HostOp} (s : State) (hstart : op ≠ .start) (hreset : op ≠ .reset) :
    SameRecord s (hostEffect op s) := by
  cases op with
  | writeMem a b => exact ⟨rfl, rfl, rfl⟩
  | writeReg i b => exact ⟨rfl, rfl, rfl⟩
  | readMem _ | readReg _ | readPC | readStatus => exact .refl s
  | start => exact absurd rfl hstart
  | reset => exact absurd rfl hreset

/-- Start enters `RUNNING` and keeps the cause, or finds the core faulted and does nothing (R131). -/
theorem hostStart_record (s : State) :
    SameRecord s (hostStart s) ∨ ((hostStart s).runState = .running ∧ (hostStart s).faultCause = s.faultCause) := by
  by_cases hf : s.runState = .faulted
  · exact .inl ⟨by simp [hf], by simp, by simp⟩
  · exact .inr ⟨by simp [hf], by simp⟩

/-- A step keeps the record, or enters `HALTED` and keeps the cause, or enters `FAULTED` with a cause. -/
theorem step_record {s t : State} (h : step s = .next t) :
    SameRecord s t ∨ (t.runState = .halted ∧ t.faultCause = s.faultCause) ∨ (t.runState = .faulted ∧ t.faultCause ≠ .none) := by
  obtain ⟨-, rfl⟩ | ⟨-, -, rfl⟩ | ⟨v, -, -, -, rfl⟩ | ⟨v, x, y, -, -, -, rfl⟩ | ⟨v, -, -, -, rfl⟩ := step_cases h
  · exact .inl (.refl _)
  · exact .inr (.inr ⟨rfl, by simp [raiseFetchOutOfBounds, Exc.cause]⟩)
  · exact .inr (.inl ⟨rfl, rfl⟩)
  · exact .inl ⟨rfl, rfl, rfl⟩
  · exact .inr (.inr ⟨rfl, by simp [raiseUnimplementedOpcode, Exc.cause]⟩)

/-- Everything an action can do to the record. -/
theorem act_record {a : Action} {s t : State} (h : act a s = some t) :
    SameRecord s t ∨
    (a = .core ∧ t.runState = .halted ∧ t.faultCause = s.faultCause) ∨
    (a = .core ∧ t.runState = .faulted ∧ t.faultCause ≠ .none) ∨
    (a = .host .start ∧ t.runState = .running ∧ t.faultCause = s.faultCause) ∨
    a = .host .reset := by
  obtain ⟨rfl, -, hstep⟩ | ⟨op, rfl, -, rfl⟩ := act_cases h
  · obtain hsame | hhalt | hfault := step_record hstep
    · exact .inl hsame
    · exact .inr (.inl ⟨rfl, hhalt⟩)
    · exact .inr (.inr (.inl ⟨rfl, hfault⟩))
  · by_cases hstart : op = .start
    · subst hstart
      obtain hsame | hrun := hostStart_record s
      · exact .inl hsame
      · exact .inr (.inr (.inr (.inl ⟨rfl, hrun⟩)))
    · by_cases hreset : op = .reset
      · exact .inr (.inr (.inr (.inr (congrArg _ hreset))))
      · exact .inl (sameRecord_hostEffect s hstart hreset)

/-- An action that changes the record is a step that stops the run, a Start that begins one, or a Reset. -/
theorem act_of_record_changed {a : Action} {s t : State} (h : act a s = some t) (hne : ¬ SameRecord s t) :
    (a = .core ∧ (t.runState = .halted ∨ t.runState = .faulted)) ∨ (a = .host .start ∧ t.runState = .running) ∨
    a = .host .reset := by
  obtain hsame | ⟨ha, hhalt, -⟩ | ⟨ha, hfault, -⟩ | ⟨ha, hrun, -⟩ | ha := act_record h
  · exact absurd hsame hne
  · exact .inl ⟨ha, .inl hhalt⟩
  · exact .inl ⟨ha, .inr hfault⟩
  · exact .inr (.inl ⟨ha, hrun⟩)
  · exact .inr (.inr ha)

/-- Only Reset clears a fault record: every other action keeps the cause or writes one. -/
theorem act_eq_reset_of_cause_cleared {a : Action} {s t : State} (h : act a s = some t) (hs : s.faultCause ≠ .none)
    (ht : t.faultCause = .none) : a = .host .reset := by
  obtain hsame | ⟨-, -, hkeep⟩ | ⟨-, -, hwrite⟩ | ⟨-, -, hkeep⟩ | ha := act_record h
  · exact absurd (hsame.faultCause.trans ht) hs
  · exact absurd (hkeep.symm.trans ht) hs
  · exact absurd ht hwrite
  · exact absurd (hkeep.symm.trans ht) hs
  · exact ha

/-- An instruction computes registers, program counter and memory from those three alone: the record is invisible to it (R33). -/
theorem exec_eq_outside_record (i : Instr) {s s' : State} (hr : ∀ r, s.readReg r = s'.readReg r) (hp : s.pc = s'.pc)
    (hm : s.mem = s'.mem) :
    ∃ t t', exec i s = .next t ∧ exec i s' = .next t' ∧ (∀ r, t.readReg r = t'.readReg r) ∧ t.pc = t'.pc ∧ t.mem = t'.mem := by
  cases i with
  | halt => exact ⟨_, _, exec_halt s, exec_halt s', hr, hp, hm⟩
  | add x y => exact ⟨_, _, exec_add x y s, exec_add x y s', fun r => by simp [hr], hp, hm⟩

end Sys2Proof.Machine

/-- Settles O2: one lemma per field of STATUS, and every operation but Start and Reset keeps the record it shows. -/
theorem statusWordLaysOutTheRunStateRecord : Obligations.StatusWordLaysOutTheRunStateRecord := by
  refine ⟨fun s => ⟨status_runState_bits s, status_faultCause_bits s, status_zero_bits s, status_faultInfo_bits s⟩,
    ⟨rfl, rfl, rfl, rfl⟩, ⟨rfl, rfl, rfl, rfl⟩, ?read, ?keep, rfl⟩
  case read => exact fun s hs => if_neg hs
  case keep =>
    intro op s t r h hstart hreset
    obtain ⟨-, rfl, -⟩ := hostAct_accepted h
    exact (sameRecord_hostEffect s hstart hreset).status_eq.symm

/-- Settles O3, from what every action can do to the record and, per instruction, from what it reads. -/
theorem runStateRecordChangesOnlyByStepStartAndReset : Obligations.RunStateRecordChangesOnlyByStepStartAndReset := by
  refine ⟨?changed, fun a s t => act_eq_reset_of_cause_cleared, fun i s s' => exec_eq_outside_record i⟩
  intro a s t h hne
  refine act_of_record_changed h fun hsame => ?_
  obtain hne | hne | hne := hne
  · exact hne hsame.runState
  · exact hne hsame.faultCause
  · exact hne hsame.faultInfo

end

section
/-! SUPPORT. Fetching at the program counter and moving it (20_memory.md section 2, 40_control.md section 1): the number the fetched
word is, the program counters a run can come to, and why every run ends. After them, the three statements about fetch and the end of
memory. -/

open Sys2Proof Sys2Proof.Machine

namespace Sys2Proof.Machine

/-! ### The word the fetch gives (R42) -/

/-- Big-endian as a number: the high byte counts 256. -/
theorem wordOfBytes_toNat (hi lo : Byte) : (wordOfBytes hi lo).toNat = hi.toNat * 256 + lo.toNat := by
  rw [wordOfBytes, BitVec.toNat_append, ← Nat.shiftLeft_add_eq_or_of_lt lo.isLt, Nat.shiftLeft_eq]

/-! ### What a step does to the program counter (R24, R82) -/

/-- A step holds the state, faults on its fetch, or moves the program counter by exactly 2. -/
theorem step_pc_cases {s t : State} (h : step s = .next t) :
    (s.runState ≠ .running ∧ t = s) ∨
    (s.runState = .running ∧ fetch s = none ∧ t = raiseFetchOutOfBounds s) ∨
    (∃ v, s.runState = .running ∧ fetch s = some v ∧ t.pc.toNat = s.pc.toNat + 2) := by
  obtain hheld | hout | ⟨v, hr, hf, -, rfl⟩ | ⟨v, x, y, hr, hf, -, rfl⟩ | ⟨v, hr, hf, -, rfl⟩ := step_cases h
  · exact .inl hheld
  · exact .inr (.inl hout)
  all_goals exact .inr (.inr ⟨v, hr, hf, advance_pc_toNat hf⟩)

/-- The step of a running core whose fetch is out of bounds is that fault (R44). -/
theorem step_of_fetch_none {s : State} (hr : s.runState = .running) (hf : fetch s = none) :
    step s = .next (raiseFetchOutOfBounds s) := by
  rw [step_of_running hr, runCycle, hf]

/-- Where a running core still runs after a step, the step fetched a word and moved past it. -/
theorem pc_of_step_still_running {s t : State} (hr : s.runState = .running) (h : step s = .next t) (ht : t.runState = .running) :
    s.pc.toNat + 1 ≤ 0xFFF ∧ t.pc.toNat = s.pc.toNat + 2 := by
  obtain ⟨hstopped, -⟩ | ⟨-, -, rfl⟩ | ⟨v, -, hf, hpc⟩ := step_pc_cases h
  · exact absurd hr hstopped
  · cases ht
  · exact ⟨(fetch_some_iff.mp hf).1, hpc⟩

/-! ### The program counters of reachable states (R24, R26, R27) -/

/-- The program counter is one of 0, 2, ..., 4096: the clauses `pc_even` and `pc_le` of `Inv`. -/
structure PcEvenInRange (s : State) : Prop where
  even : s.pc.toNat % 2 = 0
  le : s.pc.toNat ≤ 4096

theorem pcEvenInRange_of_pc_eq {s t : State} (hs : PcEvenInRange s) (hpc : t.pc = s.pc) : PcEvenInRange t :=
  ⟨hpc ▸ hs.even, hpc ▸ hs.le⟩

theorem pcEvenInRange_reset : PcEvenInRange State.reset := ⟨rfl, Nat.zero_le _⟩

/-- The advance is taken only from 4094 or below, so it stays within 4096. -/
theorem step_keeps_pcEvenInRange {s t : State} (hs : PcEvenInRange s) (h : step s = .next t) : PcEvenInRange t := by
  obtain ⟨-, rfl⟩ | ⟨-, -, rfl⟩ | ⟨v, -, hf, hpc⟩ := step_pc_cases h
  · exact hs
  · exact pcEvenInRange_of_pc_eq hs rfl
  · obtain ⟨heven, -⟩ := hs
    have hin := (fetch_some_iff.mp hf).1
    exact ⟨by omega, by omega⟩

/-- No operation of the host but Reset moves the program counter (R130). -/
theorem hostEffect_pc {op : HostOp} (s : State) (hreset : op ≠ .reset) : (hostEffect op s).pc = s.pc := by
  cases op with
  | writeMem _ _ | readMem _ | writeReg _ _ | readReg _ | readPC | readStatus => rfl
  | start => exact hostStart_pc s
  | reset => exact absurd rfl hreset

theorem act_keeps_pcEvenInRange {a : Action} {s t : State} (hs : PcEvenInRange s) (h : act a s = some t) :
    PcEvenInRange t := by
  obtain ⟨-, -, hstep⟩ | ⟨op, -, -, rfl⟩ := act_cases h
  · exact step_keeps_pcEvenInRange hs hstep
  · by_cases hreset : op = .reset
    · exact hreset ▸ pcEvenInRange_reset
    · exact pcEvenInRange_of_pc_eq hs (hostEffect_pc s hreset)

theorem reachable_pcEvenInRange {s : State} (h : Reachable s) : PcEvenInRange s :=
  h.induction pcEvenInRange_reset fun _ _ _ => act_keeps_pcEvenInRange

/-- The only reachable program counter past the last word is 4096: 4095 is odd. -/
theorem reachable_pc_eq_of_past_end {s : State} (h : Reachable s) (hp : 0xFFF < s.pc.toNat + 1) : s.pc.toNat = 4096 := by
  obtain ⟨heven, hle⟩ := reachable_pcEvenInRange h
  omega

/-! ### Every run ends (40_control.md section 1) -/

/-- The meaning of every instruction is a next state. -/
theorem exec_total (i : Instr) (s : State) : ∃ t, exec i s = .next t := by
  cases i with
  | halt => exact ⟨_, exec_halt s⟩
  | add x y => exact ⟨_, exec_add x y s⟩

/-- A running core's step is a next state: its fetch faults, its word is illegal, or its instruction has a meaning. -/
theorem step_total_of_running {s : State} (hr : s.runState = .running) : ∃ t, step s = .next t := by
  cases hf : fetch s with
  | none => exact ⟨_, step_of_fetch_none hr hf⟩
  | some v =>
    rw [step_of_running hr, runCycle, hf]
    cases hd : decode v with
    | instr i => simpa only [dispatchWord, hd] using exec_total i (advance s)
    | unimplemented w => exact ⟨raiseUnimplementedOpcode w (advance s), by simp only [dispatchWord, hd]⟩

/-- The run from `s` ends at its `k`-th step: the core is running after every fewer steps and stopped after `k`. -/
def RunEndsAt (k : Nat) (s : State) : Prop :=
  ∃ t, runSteps k s = .next t ∧ Stopped t ∧ ∀ j, j < k → ∃ u, runSteps j s = .next u ∧ u.runState = .running

theorem runEndsAt_zero {s : State} (h : Stopped s) : RunEndsAt 0 s :=
  ⟨s, rfl, h, fun _ hj => absurd hj (Nat.not_lt_zero _)⟩

/-- A running core's run ends one step later than the run from the state its step leaves. -/
theorem runEndsAt_succ {s t : State} {k : Nat} (hr : s.runState = .running) (hstep : step s = .next t) (h : RunEndsAt k t) :
    RunEndsAt (k + 1) s := by
  obtain ⟨u, hu, hstop, hgoing⟩ := h
  refine ⟨u, (runSteps_succ k hstep).trans hu, hstop, fun j hj => ?_⟩
  cases j with
  | zero => exact ⟨s, rfl, hr⟩
  | succ j =>
    obtain ⟨w, hw, hwr⟩ := hgoing j (Nat.lt_of_succ_lt_succ hj)
    exact ⟨w, (runSteps_succ j hstep).trans hw, hwr⟩

/-- Each step that does not end the run uses up two of the bytes from the program counter to the end of memory, so `n` steps are
enough where fewer than `2 * n` bytes are left. -/
theorem runEndsAt_of_bytes_left (n : Nat) {s : State} (hr : s.runState = .running) (hleft : 4096 - s.pc.toNat < 2 * n) :
    ∃ k, 1 ≤ k ∧ k ≤ n ∧ RunEndsAt k s := by
  induction n generalizing s with
  | zero => omega
  | succ n ih =>
    obtain ⟨t, hstep⟩ := step_total_of_running hr
    by_cases ht : t.runState = .running
    · obtain ⟨hin, hpc⟩ := pc_of_step_still_running hr hstep ht
      obtain ⟨k, -, hkn, hk⟩ := ih ht (by omega)
      exact ⟨k + 1, by omega, by omega, runEndsAt_succ hr hstep hk⟩
    · exact ⟨1, by omega, by omega, runEndsAt_succ hr hstep (runEndsAt_zero ht)⟩

end Sys2Proof.Machine

/-- Settles O5: the fetch in bounds is the word of the two bytes, and it gives a word nowhere else. -/
theorem fetchReadsTheWordHighByteFirst : Obligations.FetchReadsTheWordHighByteFirst := by
  refine ⟨fun s hin => ⟨_, fetch_in hin, rfl, wordOfBytes_toNat _ _⟩, ?bounds, ?sample⟩
  case bounds =>
    rintro s ⟨w, hf⟩
    exact (fetch_some_iff.mp hf).1
  case sample =>
    intro s hin hhi hlo
    rw [fetch_in hin, Memory.readWord, hhi, hlo]
    rfl

/-- Settles O6: out of bounds the step is the fault, and an even program counter of at most 4096 is out of bounds at 4096 alone. -/
theorem fetchPastTheEndRaisesFetchOutOfBounds : Obligations.FetchPastTheEndRaisesFetchOutOfBounds := by
  intro s hr hp
  have hf : fetch s = none := fetch_out hp
  exact ⟨by omega, hf, step_of_fetch_none hr hf, fun h => reachable_pc_eq_of_past_end h hp⟩

/-- Settles O43, by induction on the steps that the bytes left in memory allow. -/
theorem everyRunEndsWithinItsBound : Obligations.EveryRunEndsWithinItsBound := by
  intro s hr
  obtain ⟨k, hpos, hle, t, hrun, hstop, hgoing⟩ :=
    runEndsAt_of_bytes_left ((4096 - s.pc.toNat) / 2 + 1) hr (by omega)
  exact ⟨k, t, hpos, hle, hrun, hstop, hgoing⟩

end

section
/-! SUPPORT. The four nibbles of an opcode as numbers, the opcode table's match and mask read nibble by nibble, and which nibbles give
each answer of the decoder (30_encoding.md sections 1 and 3). At the end, the two statements about them. -/

open Sys2Proof Sys2Proof.Machine

namespace Sys2Proof

/-! ### The four nibbles (R61) -/

/-- Every 4-bit field is the opcode shifted down and masked. -/
theorem extractLsb'_four_toNat (v : Opcode) (k : Nat) : (v.extractLsb' k 4).toNat = (v.toNat >>> k) &&& 0xF := by
  rw [BitVec.extractLsb'_toNat]
  exact (Nat.and_two_pow_sub_one_eq_mod _ 4).symm

theorem nibble_toNat_le (n : Nibble) : n.toNat ≤ 15 := Nat.le_of_lt_succ n.isLt

/-- `v = C ++ X ++ Y ++ D`: adjacent fields join into the bits they span. -/
theorem append_fields (v : Opcode) : fieldC v ++ fieldX v ++ fieldY v ++ fieldD v = v := by
  have hCX : fieldC v ++ fieldX v = v.extractLsb' 8 8 := BitVec.extractLsb'_append_extractLsb'_eq_extractLsb' rfl
  have hCXY : v.extractLsb' 8 8 ++ fieldY v = v.extractLsb' 4 12 := BitVec.extractLsb'_append_extractLsb'_eq_extractLsb' rfl
  have hCXYD : v.extractLsb' 4 12 ++ fieldD v = v.extractLsb' 0 16 := BitVec.extractLsb'_append_extractLsb'_eq_extractLsb' rfl
  rw [hCX, hCXY, hCXYD, BitVec.extractLsb'_eq_self]

/-- Four appended nibbles as a number: each shifted to its place. -/
theorem append_nibbles_toNat (c x y d : Nibble) :
    (c ++ x ++ y ++ d).toNat = (c.toNat <<< 12 ||| x.toNat <<< 8 ||| y.toNat <<< 4 ||| d.toNat) := by
  simp only [BitVec.toNat_append, Nat.shiftLeft_or_distrib, ← Nat.shiftLeft_add]

/-! ### Match and mask, nibble by nibble (R64) -/

theorem opcode_eq_iff {v w : Opcode} :
    v = w ↔ fieldC v = fieldC w ∧ fieldX v = fieldX w ∧ fieldY v = fieldY w ∧ fieldD v = fieldD w :=
  ⟨fun h => h ▸ ⟨rfl, rfl, rfl, rfl⟩, fun ⟨hc, hx, hy, hd⟩ => opcode_ext hc hx hy hd⟩

theorem admits_iff (r : OpcodeRow) (v : Opcode) :
    r.admits v = true ↔
      fieldC v &&& fieldC r.mask = fieldC r.pattern ∧ fieldX v &&& fieldX r.mask = fieldX r.pattern ∧
      fieldY v &&& fieldY r.mask = fieldY r.pattern ∧ fieldD v &&& fieldD r.mask = fieldD r.pattern := by
  rw [OpcodeRow.admits, beq_iff_eq, opcode_eq_iff]
  simp only [fieldC, fieldX, fieldY, fieldD, BitVec.extractLsb'_and]

/-- Row `HALT` masks nothing out. -/
theorem haltRow_admits_iff (v : Opcode) : haltRow.admits v = true ↔ v = 0x0000 := by
  have hkeep : v &&& haltRow.mask = v := BitVec.and_allOnes
  rw [OpcodeRow.admits, beq_iff_eq, hkeep, haltRow]

/-- Row `ADD` fixes the class and the selector, and masks both register indices out. -/
theorem addRow_admits_iff (v : Opcode) : addRow.admits v = true ↔ fieldC v = 8 ∧ fieldD v = 4 := by
  have hkeep (n : Nibble) : n &&& 0xF = n := BitVec.and_allOnes
  have hdrop (n : Nibble) : n &&& 0 = 0 := BitVec.and_zero
  have hC : fieldC addRow.mask = 0xF ∧ fieldC addRow.pattern = 8 := by decide
  have hX : fieldX addRow.mask = 0 ∧ fieldX addRow.pattern = 0 := by decide
  have hY : fieldY addRow.mask = 0 ∧ fieldY addRow.pattern = 0 := by decide
  have hD : fieldD addRow.mask = 0xF ∧ fieldD addRow.pattern = 4 := by decide
  simp only [admits_iff, hC, hX, hY, hD, hkeep, hdrop, true_and]

/-- The only word whose four nibbles are 0. -/
theorem fields_zero_iff (v : Opcode) : fieldC v = 0 ∧ fieldX v = 0 ∧ fieldY v = 0 ∧ fieldD v = 0 ↔ v = 0x0000 :=
  (opcode_eq_iff (w := 0x0000)).symm

/-- The class tells the two patterns apart. -/
theorem not_haltRow_and_addRow (v : Opcode) : ¬(haltRow.admits v = true ∧ addRow.admits v = true) := by
  rintro ⟨hhalt, hadd⟩
  rw [(haltRow_admits_iff v).mp hhalt] at hadd
  exact absurd hadd (by decide)

/-! ### The decoder's answers (R64) -/

theorem decode_eq_halt_iff (v : Opcode) :
    decode v = .instr .halt ↔ fieldC v = 0 ∧ fieldX v = 0 ∧ fieldY v = 0 ∧ fieldD v = 0 := by
  obtain ⟨h, hzero⟩ | ⟨h, hc, -⟩ | ⟨h, hzero, -⟩ := decode_cases v
  · exact iff_of_true h hzero
  · simp [h, hc]
  · exact iff_of_false (by simp [h]) hzero

theorem decode_eq_add_iff (v : Opcode) (x y : RegIdx) :
    decode v = .instr (.add x y) ↔ fieldC v = 8 ∧ (fieldX v).toNat = x.val ∧ (fieldY v).toNat = y.val ∧ fieldD v = 4 := by
  obtain ⟨h, hc, -⟩ | ⟨h, hc, hd⟩ | ⟨h, -, hadd⟩ := decode_cases v
  · simp [h, hc]
  · simp [h, hc, hd, regOfNibble, Fin.ext_iff]
  · exact iff_of_false (by simp [h]) fun ⟨hc, _, _, hd⟩ => hadd ⟨hc, hd⟩

/-- Every pair of indices is some pair of registers, so the class and the selector alone make a word an ADD. -/
theorem exists_decode_eq_add_iff (v : Opcode) : (∃ x y, decode v = .instr (.add x y)) ↔ fieldC v = 8 ∧ fieldD v = 4 := by
  simp only [decode_eq_add_iff]
  exact ⟨fun ⟨_, _, hc, _, _, hd⟩ => ⟨hc, hd⟩, fun ⟨hc, hd⟩ => ⟨regOfNibble (fieldX v), regOfNibble (fieldY v), hc, rfl, rfl, hd⟩⟩

/-- The fault is the answer that is left. -/
theorem decode_eq_unimplemented_iff (v : Opcode) :
    decode v = .unimplemented v ↔
      ¬(fieldC v = 0 ∧ fieldX v = 0 ∧ fieldY v = 0 ∧ fieldD v = 0) ∧ ¬(fieldC v = 8 ∧ fieldD v = 4) := by
  obtain ⟨h, hzero⟩ | ⟨h, hadd⟩ | ⟨h, hnone⟩ := decode_cases v
  · exact iff_of_false (by simp [h]) fun hnone => hnone.1 hzero
  · exact iff_of_false (by simp [h]) fun hnone => hnone.2 hadd
  · exact iff_of_true h hnone

end Sys2Proof

/-- Settles O27: per answer of the decoder, its nibbles; per row of the table, the same nibbles. -/
theorem decodingDispatchesOnTheNibbles : Obligations.DecodingDispatchesOnTheNibbles := by
  intro v
  refine ⟨decode_eq_halt_iff v, ?halt, haltRow_admits_iff v, decode_eq_add_iff v, ?add, ?fault, not_haltRow_and_addRow v⟩
  case halt => rw [decode_eq_halt_iff, fields_zero_iff, haltRow_admits_iff]
  case add => rw [exists_decode_eq_add_iff, addRow_admits_iff]
  case fault =>
    rw [decode_eq_unimplemented_iff, fields_zero_iff, ← haltRow_admits_iff, ← addRow_admits_iff, Bool.not_eq_true,
      Bool.not_eq_true]

/-- Settles O26: each field is a shift and a mask, and the fields in order are the opcode. -/
theorem fourNibblesReconstructTheOpcode : Obligations.FourNibblesReconstructTheOpcode := by
  intro v
  refine ⟨extractLsb'_four_toNat v 12, extractLsb'_four_toNat v 8, extractLsb'_four_toNat v 4, extractLsb'_four_toNat v 0,
    nibble_toNat_le _, nibble_toNat_le _, nibble_toNat_le _, nibble_toNat_le _, (append_fields v).symm, ?number⟩
  case number => rw [← append_nibbles_toNat, append_fields]

end


section
/-! SUPPORT. The cycle of the core (40_control.md sections 1 and 3): the dispatch on the four nibbles, when the core and the host have
a transition, and how a step leaves a running core. At the end, the four statements about them. -/

open Sys2Proof Sys2Proof.Machine

namespace Sys2Proof.Machine

/-! ### Decode and dispatch (R83, R84) -/

theorem decode_eq_halt_iff_zero (v : Opcode) : decode v = .instr .halt ↔ v = 0x0000 :=
  (decode_eq_halt_iff v).trans (fields_zero_iff v)

/-- The words the decoder answers with the fault are those the spec calls illegal (R66). -/
theorem decode_eq_unimplemented_iff_illegal (v : Opcode) : decode v = .unimplemented v ↔ IllegalOpcode v := by
  have hadd : fieldC v = 8 ∧ fieldD v = 4 ↔ v &&& 0xF00F = 0x8004 := (addRow_admits_iff v).symm.trans beq_iff_eq
  rw [decode_eq_unimplemented_iff, fields_zero_iff, hadd, IllegalOpcode]

/-- The dispatch as the branches on `(C, X, Y, D)` of the pseudocode (R80, R64). -/
theorem dispatchWord_eq_ite (v : Opcode) (s : State) :
    dispatchWord v s =
      if fieldC v = 0 ∧ fieldX v = 0 ∧ fieldY v = 0 ∧ fieldD v = 0 then exec .halt s
      else if fieldC v = 8 ∧ fieldD v = 4 then exec (.add (regOfNibble (fieldX v)) (regOfNibble (fieldY v))) s
      else .next (raiseUnimplementedOpcode v s) := by
  obtain ⟨hd, hzero⟩ | ⟨hd, hadd⟩ | ⟨hd, hzero, hadd⟩ := decode_cases v
  · rw [dispatchWord, hd, if_pos hzero]
  · have hzero : ¬(fieldC v = 0 ∧ fieldX v = 0 ∧ fieldY v = 0 ∧ fieldD v = 0) := fun h => by simp [h.1] at hadd
    rw [dispatchWord, hd, if_neg hzero, if_pos hadd]
  · rw [dispatchWord, hd, if_neg hzero, if_neg hadd]

/-- The step of a running core whose fetch gives a word dispatches that word past it. -/
theorem step_of_fetch_some {s : State} {v : Opcode} (hr : s.runState = .running) (hf : fetch s = some v) :
    step s = dispatchWord v (advance s) := by
  rw [step_of_running hr, runCycle, hf]

/-- On the word 0x0000 that is the advance and then the stop (R89). -/
theorem step_of_fetch_zero {s : State} (hr : s.runState = .running) (hf : fetch s = some 0x0000) :
    step s = .next (stopHalted (advance s)) := by
  rw [step_of_fetch_some hr hf, dispatchWord, (decode_eq_halt_iff_zero _).mpr rfl]
  exact exec_halt _

/-! ### Which transitions are enabled (R53, R80) -/

theorem act_core_of_not_running {s : State} (h : s.runState ≠ .running) : act .core s = none := by
  simp [act, coreEnabled, h]

theorem act_core_of_step {s t : State} (hr : s.runState = .running) (h : step s = .next t) : act .core s = some t := by
  simp [act, coreEnabled, hr, h]

theorem act_host_of_running {s : State} (hr : s.runState = .running) (op : HostOp) : act (.host op) s = none := by
  simp [act, hostAct, hr]

theorem exists_act_core_iff (s : State) : (∃ t, act .core s = some t) ↔ s.runState = .running := by
  by_cases hr : s.runState = .running
  · obtain ⟨t, hstep⟩ := step_total_of_running hr
    exact iff_of_true ⟨t, act_core_of_step hr hstep⟩ hr
  · simp [act_core_of_not_running hr, hr]

/-! ### How a step leaves a running core (R85) -/

/-- ADD alone lets the run go on; each of the other three outcomes of the cycle ends it. -/
theorem step_ends_run_cases {s t : State} (hr : s.runState = .running) (h : step s = .next t) :
    t.runState = .running ∨
    (t.runState = .halted ∧ fetch s = some 0x0000) ∨
    (t.runState = .faulted ∧ t.faultCause = .unimplementedOpcode ∧ ∃ w, fetch s = some w ∧ IllegalOpcode w) ∨
    (t.runState = .faulted ∧ t.faultCause = .fetchOutOfBounds ∧ fetch s = none) := by
  obtain ⟨hstopped, -⟩ | ⟨-, hf, rfl⟩ | ⟨v, -, hf, hd, rfl⟩ | ⟨v, x, y, -, -, -, rfl⟩ | ⟨v, -, hf, hd, rfl⟩ := step_cases h
  · exact absurd hr hstopped
  · exact .inr (.inr (.inr ⟨rfl, rfl, hf⟩))
  · obtain rfl := (decode_eq_halt_iff_zero v).mp hd
    exact .inr (.inl ⟨rfl, hf⟩)
  · exact .inl hr
  · exact .inr (.inr (.inl ⟨rfl, rfl, v, hf, (decode_eq_unimplemented_iff_illegal v).mp hd⟩))

end Sys2Proof.Machine

/-- Settles O8: the core acts exactly while running, and there the bounds check comes before the dispatch on the nibbles. -/
theorem stepIsFetchAdvanceDecodeDispatch : Obligations.StepIsFetchAdvanceDecodeDispatch := by
  refine ⟨exists_act_core_iff, fun s hr => ?_⟩
  by_cases hout : s.pc.toNat + 1 > 0xFFF
  · rw [if_pos hout]
    exact step_of_fetch_none hr (fetch_out hout)
  · rw [if_neg hout, step_of_fetch_some hr (fetch_in (Nat.le_of_not_gt hout))]
    exact dispatchWord_eq_ite _ (advance s)

/-- Settles O10: a word is fetched from 4094 or below, and of the cases of a step only the advance past a fetched word is left. -/
theorem everyFetchedStepAdvancesThePc : Obligations.EveryFetchedStepAdvancesThePc := by
  intro s w hr hf
  have hin : s.pc.toNat + 1 ≤ 0xFFF := (fetch_some_iff.mp hf).1
  obtain ⟨t, hstep⟩ := step_total_of_running hr
  have hpc : t.pc.toNat = s.pc.toNat + 2 := by
    obtain ⟨hstopped, -⟩ | ⟨-, hnone, -⟩ | ⟨_, -, -, hpc⟩ := step_pc_cases hstep
    · exact absurd hr hstopped
    · simp [hf] at hnone
    · exact hpc
  exact ⟨by omega, t, hstep, hpc, by omega⟩

/-- Settles O11: while the core runs the only action is its step, and the step's outcomes are those of the cycle. -/
theorem aRunEndsInOneOfThreeWays : Obligations.ARunEndsInOneOfThreeWays := by
  refine fun s hr => ⟨(exists_act_core_iff s).mpr hr, act_host_of_running hr, fun a t h => ?_⟩
  obtain ⟨-, -, hstep⟩ | ⟨_, -, hstopped, -⟩ := act_cases h
  · exact step_ends_run_cases hr hstep
  · exact absurd hr hstopped

/-- Settles O15, from the meaning of HALT and the step on the word 0x0000. -/
theorem haltEndsTheRunCleanly : Obligations.HaltEndsTheRunCleanly :=
  ⟨exec_halt, fun _ hr hf => ⟨step_of_fetch_zero hr hf, advance_pc_toNat hf, act_core_of_not_running (by simp)⟩⟩

end


section
/-! SUPPORT. ADD (41_alu.md section 2): what each register reads after its two writes, and the meaning of ADD on two known operands.
At the end, the three statements about it. -/

open Sys2Proof Sys2Proof.Machine

namespace Sys2Proof.Machine

/-! ### The registers after the two writes (R103) -/

/-- The flag is written last, so it remains in register 15 whatever X is (R106). -/
theorem readReg_flag_after_writes (x : RegIdx) (r f : Byte) (s : State) : (writeResultThenFlag x r f s).readReg 15 = f := by
  rw [readReg_writeResultThenFlag, if_pos rfl]

theorem readReg_result_after_writes {x : RegIdx} (hx : x ≠ 15) (r f : Byte) (s : State) :
    (writeResultThenFlag x r f s).readReg x = r := by
  rw [readReg_writeResultThenFlag, if_neg hx, if_pos rfl]

theorem readReg_other_after_writes {x i : RegIdx} (hx : i ≠ x) (hflag : i ≠ 15) (r f : Byte) (s : State) :
    (writeResultThenFlag x r f s).readReg i = s.readReg i := by
  rw [readReg_writeResultThenFlag, if_neg hflag, if_neg hx]

/-! ### ADD on known operands -/

/-- The wrapped sum is the addition of bytes (R101). -/
theorem sumByte_exactSum (a b : Byte) : sumByte (exactSum a b) = a + b :=
  BitVec.eq_of_toNat_eq ((sumByte_toNat a b).trans (BitVec.toNat_add a b).symm)

/-- ADD leaves the sum of the operands, as bytes, in register X, and their carry in register 15 (R103, R104). -/
theorem exec_add_of_operands {x y : RegIdx} {a b : Byte} {s : State} (hx : x ≠ 15) (ha : s.readReg x = a) (hb : s.readReg y = b) :
    ∃ t, exec (.add x y) s = .next t ∧ t.readReg x = a + b ∧
      t.readReg 15 = if 255 < a.toNat + b.toNat then 1 else 0 := by
  subst ha hb
  refine ⟨_, exec_add x y s, ?result, ?carry⟩
  case result => rw [readReg_result_after_writes hx, sumByte_exactSum]
  case carry => rw [readReg_flag_after_writes, carryByte_exactSum]

end Sys2Proof.Machine

/-- Settles O18, register by register: the two writes put the wrapped sum in X and then the carry in 15, and touch nothing else. -/
theorem addWritesTheWrappedSumAndTheCarry : Obligations.AddWritesTheWrappedSumAndTheCarry := by
  intro x y s
  refine ⟨_, exec_add x y s, fun hx => ?sum, ?carry, fun hyx hy => readReg_other_after_writes hyx hy _ _ s, rfl, fun _ => rfl⟩
  case sum => rw [readReg_result_after_writes hx, sumByte_toNat]
  case carry => rw [readReg_flag_after_writes, carryByte_exactSum]

/-- Settles O20: with X = 15 the flag's write overwrites the result's, and no other register is written. -/
theorem addToTheFlagRegisterKeepsOnlyTheCarry : Obligations.AddToTheFlagRegisterKeepsOnlyTheCarry := by
  intro y s
  refine ⟨_, exec_add 15 y s, ?carry, fun i hi => readReg_other_after_writes hi hi _ _ s⟩
  case carry => rw [readReg_flag_after_writes, carryByte_exactSum]

/-- Settles O24: 5 + 10 = 15 does not exceed 255; 250 + 10 = 260 does, and wraps to 4. -/
theorem addWorkedExamples : Obligations.AddWorkedExamples := by
  refine ⟨fun x y s _ hx _ h5 h10 => ?noCarry, fun x y s _ hx _ h250 h10 => ?carry, ?encoding⟩
  case noCarry => exact exec_add_of_operands hx h5 h10
  case carry => exact exec_add_of_operands hx h250 h10
  case encoding => exact encode_add 0 1

end


section
/-! SUPPORT. The fault of an illegal word, and the host's port (60_exceptions.md sections 1, 2 and 6): the step on a fetched illegal
word, when an operation of the host is accepted, and what Start does in each run state. At the end, the four statements about them. -/

open Sys2Proof Sys2Proof.Machine

namespace Sys2Proof.Machine

/-! ### The fault of an illegal word (R121) -/

/-- The advance is taken before the dispatch finds that the word is no instruction. -/
theorem step_of_fetch_illegal {s : State} {v : Opcode} (hr : s.runState = .running) (hf : fetch s = some v)
    (hill : IllegalOpcode v) : step s = .next (raiseUnimplementedOpcode v (advance s)) := by
  rw [step_of_fetch_some hr hf, dispatchWord, (decode_eq_unimplemented_iff_illegal v).mpr hill]

/-! ### When an operation of the host is accepted (R130) -/

theorem hostAct_of_running {s : State} (hr : s.runState = .running) (op : HostOp) : hostAct op s = .notAccepted :=
  if_pos hr

theorem hostAct_of_not_running {s : State} (hs : s.runState ≠ .running) (op : HostOp) :
    hostAct op s = .accepted (hostEffect op s) (hostReply op s) :=
  if_neg hs

/-! ### Start (R131) -/

/-- Start writes the run state alone, and not even that once the core has faulted. -/
theorem hostStart_eq_ite (s : State) : hostStart s = if s.runState = .faulted then s else { s with runState := .running } := by
  obtain ⟨regs, pc, mem, runState, faultCause, faultInfo⟩ := s
  cases runState with
  | idle | running | halted | faulted => rfl

theorem hostAct_start {s : State} (hs : s.runState ≠ .running) :
    hostAct .start s = .accepted (if s.runState = .faulted then s else { s with runState := .running }) .done := by
  rw [← hostStart_eq_ite]
  exact hostAct_of_not_running hs .start

theorem hostAct_start_of_faulted {s : State} (hf : s.runState = .faulted) : hostAct .start s = .accepted s .done := by
  rw [hostAct_start (by simp [hf]), if_pos hf]

theorem hostAct_start_of_idle_or_halted {s : State} (h : s.runState = .idle ∨ s.runState = .halted) :
    hostAct .start s = .accepted { s with runState := .running } .done := by
  obtain h | h := h
  all_goals rw [hostAct_start (by simp [h]), if_neg (by simp [h])]

end Sys2Proof.Machine

/-- Settles O7: the fault is raised past the word, and raising it writes the run-state record alone. -/
theorem unimplementedOpcodeRaisesItsFault : Obligations.UnimplementedOpcodeRaisesItsFault := by
  refine ⟨fun s w hr hf hzero hadd => ?every, fun s hr hf => ?sample⟩
  case every =>
    exact ⟨_, step_of_fetch_illegal hr hf ⟨hzero, hadd⟩, rfl, rfl, rfl, advance_pc_toNat hf, fun _ => rfl, fun _ => rfl⟩
  case sample =>
    have hill : IllegalOpcode 0x00E0 := ⟨by decide, by decide⟩
    exact ⟨_, step_of_fetch_illegal hr hf hill, rfl, rfl⟩

/-- Settles O32: outside `RUNNING` each operation is its effect and its reply; the two writes are said by read after write. -/
theorem hostOperationsHaveTheirEffects : Obligations.HostOperationsHaveTheirEffects := by
  refine ⟨fun op s hr => hostAct_of_running hr op, fun s hs => ?_⟩
  have haccept : ∀ op, hostAct op s = .accepted (hostEffect op s) (hostReply op s) := hostAct_of_not_running hs
  refine ⟨fun a b hwf => ?writeMem, fun a => haccept (.readMem a), fun i b => ?writeReg, fun i => haccept (.readReg i),
    haccept .readPC, haccept .readStatus, hostAct_start hs, haccept .reset⟩
  case writeMem => exact ⟨_, haccept (.writeMem a b), fun c => readByte_writeByte hwf a.toNat c b⟩
  case writeReg => exact ⟨_, haccept (.writeReg i b), fun j => readReg_writeReg s i j b, rfl, rfl, rfl, rfl, rfl⟩

/-- Settles O4: the three fields written, each other field kept, and the core's step disabled by the run state written. -/
theorem raiseWritesOnlyTheRunStateRecord : Obligations.RaiseWritesOnlyTheRunStateRecord := by
  intro e info s
  refine ⟨raise_runState e info s, raise_faultInfo e info s, ?code, raise_readReg e info s, raise_pc e info s, fun _ => rfl,
    act_core_of_not_running (by simp)⟩
  case code =>
    cases e with
    | unimplementedOpcode | fetchOutOfBounds => rfl

/-- Settles O33: per run state, Start is its write of `RUNNING` or nothing; reset leaves the core idle at the entry point. -/
theorem startResumesAtThePc : Obligations.StartResumesAtThePc :=
  ⟨fun _ => hostAct_start_of_idle_or_halted, fun _ => hostAct_start_of_faulted,
    hostAct_start_of_idle_or_halted (.inl rfl), rfl⟩

end


section
/-! SUPPORT. Reset (70_reset_and_hazards.md section 1): the memory it leaves, and what the host's Reset() does. At the end, the
statement about it. -/

open Sys2Proof Sys2Proof.Machine

namespace Sys2Proof.Machine

/-- Reset lists no byte, so every address reads as the reset value (R36, R140). -/
@[simp] theorem readByte_reset (a : Nat) : State.reset.mem.readByte a = 0 := readByte_nil a

/-- An accepted Reset() leaves the reset state, whatever the state it found, `FAULTED` included (R140). -/
theorem hostAct_reset {s : State} (hs : s.runState ≠ .running) : hostAct .reset s = .accepted State.reset .done :=
  hostAct_of_not_running hs .reset

end Sys2Proof.Machine

/-- Settles O1: the registers and the memory read 0 by their read lemmas, the pc and the record are fields of the reset state, and
Reset() is accepted as every operation of the host is, exactly outside `RUNNING`. -/
theorem resetSetsEveryPieceOfState : Obligations.ResetSetsEveryPieceOfState := by
  refine ⟨readReg_reset, fun a _ => readByte_reset a, ?pc, ?runState, ?faultCause, ?faultInfo, fun _ => hostAct_reset,
    fun _ hr => hostAct_of_running hr .reset⟩
  case pc | runState | faultCause | faultInfo => rfl

end


section
/-! SUPPORT. The encoder against the decoder, on words and on bytes (30_encoding.md sections 1, 4 and 6): the four nibbles of an
instruction's word, the halves of a word, and the number of words that are no instruction's. At the end, the four statements about
them. -/

open Sys2Proof Sys2Proof.Machine

namespace Sys2Proof

/-! ### The nibbles of four appended ones (R61) -/

@[simp] theorem fieldC_append (c x y d : Nibble) : fieldC (c ++ x ++ y ++ d) = c := by
  rw [fieldC, BitVec.extractLsb'_append_eq_of_le (by decide), BitVec.extractLsb'_append_eq_of_le (by decide)]
  exact BitVec.extractLsb'_append_eq_left

@[simp] theorem fieldX_append (c x y d : Nibble) : fieldX (c ++ x ++ y ++ d) = x := by
  rw [fieldX, BitVec.extractLsb'_append_eq_of_le (by decide), BitVec.extractLsb'_append_eq_of_le (by decide)]
  exact BitVec.extractLsb'_append_eq_right

@[simp] theorem fieldY_append (c x y d : Nibble) : fieldY (c ++ x ++ y ++ d) = y := by
  rw [fieldY, BitVec.extractLsb'_append_eq_of_le (by decide)]
  exact BitVec.extractLsb'_append_eq_right

@[simp] theorem fieldD_append (c x y d : Nibble) : fieldD (c ++ x ++ y ++ d) = d := BitVec.extractLsb'_append_eq_right

/-! ### Words: decode and encode are inverse -/

theorem nibbleOfReg_toNat (i : RegIdx) : (nibbleOfReg i).toNat = i.val := congrArg Fin.val (regOfNibble_nibbleOfReg i)

/-- Every instruction's word decodes to it (R72). -/
@[simp] theorem decode_encode (i : Instr) : decode (encode i) = .instr i := by
  cases i with
  | halt => exact (decode_eq_halt_iff _).mpr ((fields_zero_iff _).mpr encode_halt)
  | add x y => simp [decode_eq_add_iff, encode_add, nibbleOfReg_toNat]

/-- A word of class 8 and selector 4 is the word of the ADD its other two nibbles name. -/
theorem eq_encode_add_of_fields {v : Opcode} (hc : fieldC v = 8) (hd : fieldD v = 4) :
    v = encode (.add (regOfNibble (fieldX v)) (regOfNibble (fieldY v))) := by
  rw [encode_add, nibbleOfReg_regOfNibble, nibbleOfReg_regOfNibble, ← hc, ← hd, append_fields]

theorem eq_encode_of_decode {v : Opcode} {i : Instr} (h : decode v = .instr i) : v = encode i := by
  obtain ⟨hv, hzero⟩ | ⟨hv, hc, hd⟩ | ⟨hv, -⟩ := decode_cases v
  · obtain rfl : Instr.halt = i := Decoded.instr.inj (hv.symm.trans h)
    exact (fields_zero_iff v).mp hzero
  · obtain rfl := Decoded.instr.inj (hv.symm.trans h)
    exact eq_encode_add_of_fields hc hd
  · cases hv.symm.trans h

theorem decode_eq_instr_iff (v : Opcode) (i : Instr) : decode v = .instr i ↔ v = encode i :=
  ⟨eq_encode_of_decode, fun h => h ▸ decode_encode i⟩

theorem encode_injective : Function.Injective encode := fun i j h =>
  Decoded.instr.inj (by rw [← decode_encode i, h, decode_encode])

/-- The fault is for the words that are no instruction's, and it carries the word (R66). -/
theorem decode_eq_unimplemented_iff_not_encode (v w : Opcode) :
    decode v = .unimplemented w ↔ w = v ∧ ∀ i, v ≠ encode i := by
  cases hv : decode v with
  | instr i => exact iff_of_false nofun fun ⟨_, hne⟩ => hne i (eq_encode_of_decode hv)
  | unimplemented u =>
    obtain rfl := decode_unimplemented hv
    have hne (i : Instr) : u ≠ encode i := fun h => by rw [h, decode_encode] at hv; cases hv
    exact ⟨fun h => ⟨(Decoded.unimplemented.inj h).symm, hne⟩, fun ⟨h, _⟩ => h ▸ rfl⟩

/-! ### Bytes: the two halves of a word (R42, R45) -/

@[simp] theorem highByte_wordOfBytes (hi lo : Byte) : highByte (wordOfBytes hi lo) = hi := BitVec.extractLsb'_append_eq_left

@[simp] theorem lowByte_wordOfBytes (hi lo : Byte) : lowByte (wordOfBytes hi lo) = lo := BitVec.extractLsb'_append_eq_right

theorem wordOfBytes_eq_iff (hi lo : Byte) (v : Opcode) : wordOfBytes hi lo = v ↔ hi = highByte v ∧ lo = lowByte v := by
  refine ⟨fun h => by simp [← h], ?_⟩
  rintro ⟨rfl, rfl⟩
  exact wordOfBytes_high_low v

/-- The head of a list of two bytes or more is decided by their word alone; the rest is handed on. -/
theorem decodeBytes_cons_cons_eq_ok_iff (hi lo : Byte) (bs rest : List Byte) (i : Instr) :
    decodeBytes (hi :: lo :: bs) = .ok (i, rest) ↔ decode (wordOfBytes hi lo) = .instr i ∧ bs = rest := by
  cases hv : decode (wordOfBytes hi lo) <;> simp [decodeBytes, hv]

theorem decodeBytes_eq_ok_iff (bs rest : List Byte) (i : Instr) :
    decodeBytes bs = .ok (i, rest) ↔ bs = encodeBytes i ++ rest := by
  match bs with
  | hi :: lo :: bs =>
    simp only [decodeBytes_cons_cons_eq_ok_iff, decode_eq_instr_iff, wordOfBytes_eq_iff, encodeBytes, List.cons_append,
      List.nil_append, List.cons.injEq, and_assoc]
  | [_] | [] => simp [decodeBytes, encodeBytes]

/-! ### How many words are an instruction's (section 4) -/

/-- HALT, and ADD on each pair of registers. -/
def allInstrs : Finset Instr := insert .halt (Finset.univ.image fun p : RegIdx × RegIdx => .add p.1 p.2)

theorem mem_allInstrs (i : Instr) : i ∈ allInstrs := by
  cases i with
  | halt => exact Finset.mem_insert_self _ _
  | add x y => exact Finset.mem_insert_of_mem (Finset.mem_image_of_mem _ (Finset.mem_univ (x, y)))

/-- One HALT, and 16 * 16 ADDs. -/
theorem card_allInstrs : allInstrs.card = 257 := by
  have hadd : Function.Injective fun p : RegIdx × RegIdx => Instr.add p.1 p.2 := fun p q h => by
    obtain ⟨hx, hy⟩ := Instr.add.inj h
    exact Prod.ext hx hy
  rw [allInstrs, Finset.card_insert_of_notMem (by simp), Finset.card_image_of_injective _ hadd, Finset.card_univ,
    Fintype.card_prod, Fintype.card_fin]

/-- The words of the instructions, as numbers. -/
def legalWords : Finset (Fin 65536) := allInstrs.image fun i => (encode i).toFin

theorem mem_legalWords_iff (n : Fin 65536) : n ∈ legalWords ↔ ∃ i, BitVec.ofFin n = encode i := by
  rw [legalWords, Finset.mem_image]
  refine exists_congr fun i => ?_
  rw [and_iff_right (mem_allInstrs i)]
  exact ⟨fun h => h ▸ rfl, fun h => congrArg BitVec.toFin h.symm⟩

/-- Different instructions have different words. -/
theorem card_legalWords : legalWords.card = 257 := by
  have hinj : Function.Injective fun i => (encode i).toFin := BitVec.toFin_injective.comp encode_injective
  rw [legalWords, Finset.card_image_of_injective _ hinj, card_allInstrs]

theorem filter_unimplemented_eq_compl :
    (Finset.univ.filter fun n : Fin 65536 => decode (BitVec.ofFin n) = .unimplemented (BitVec.ofFin n)) = legalWordsᶜ := by
  ext n
  simp [decode_eq_unimplemented_iff_not_encode, mem_legalWords_iff]

end Sys2Proof

/-- Settles O28: the decoder's answer on a word is the instruction it encodes, and the fault on the words that are left. -/
theorem decodeInvertsEncodeBothWays : Obligations.DecodeInvertsEncodeBothWays :=
  ⟨decode_eq_instr_iff, decode_eq_unimplemented_iff_not_encode⟩

/-- Settles O29, from the same on words: the first two bytes are the halves of the word. -/
theorem decodeBytesInvertsEncodeBytes : Obligations.DecodeBytesInvertsEncodeBytes :=
  decodeBytes_eq_ok_iff

/-- Settles O30: the illegal words are the complement of the 257 that the instructions encode to. -/
theorem illegalWordsNumber65279 : Obligations.IllegalWordsNumber65279 := by
  rw [Obligations.IllegalWordsNumber65279, filter_unimplemented_eq_compl, Finset.card_compl, Fintype.card_fin, card_legalWords]

/-- Settles O31: each sample is an instruction's encoding, or neither 0x0000 nor of the form 0x8XY4. -/
theorem sampleWordsDecodeAsTheTableSays : Obligations.SampleWordsDecodeAsTheTableSays := by
  have legal {v : Opcode} (i : Instr) (h : v = encode i) : decode v = .instr i := (decode_eq_instr_iff v i).mpr h
  have illegal {v : Opcode} (h : v ≠ 0x0000 ∧ v &&& 0xF00F ≠ 0x8004) : decode v = .unimplemented v :=
    (decode_eq_unimplemented_iff_illegal v).mpr h
  exact ⟨legal .halt rfl, legal (.add 0 1) rfl, legal (.add 15 15) rfl, legal (.add 3 10) rfl, illegal (by decide),
    illegal (by decide), illegal (by decide), illegal (by decide), illegal (by decide)⟩

end


section
/-! SUPPORT. The invariant of every reachable state (10_state.md sections 2 and 5): the record that each outcome of a step leaves,
and that reset has the invariant and every step and every operation of the host keeps it. At the end, the five statements about it
and about `FAULTED`. -/

open Sys2Proof Sys2Proof.Machine

namespace Sys2Proof.Machine

/-! ### Coherent records (R31, R32) -/

/-- Without a fault the record is coherent when it is clear. -/
theorem recordCoherent_of_clear {s : State} (hs : s.runState ≠ .faulted) (hcause : s.faultCause = .none)
    (hinfo : s.faultInfo = 0) : RecordCoherent s where
  faulted_iff := iff_of_false hs (· hcause)
  not_reserved := by simp [hcause]
  info_none _ := hinfo
  info_opcode := by simp [hcause]
  info_fetch := by simp [hcause]

/-- A coherent record outside `FAULTED` is clear. -/
theorem RecordCoherent.clear {s : State} (h : RecordCoherent s) (hs : s.runState ≠ .faulted) :
    s.faultCause = .none ∧ s.faultInfo = 0 := by
  have hcause : s.faultCause = .none := by_contra fun hne => hs (h.faulted_iff.mpr hne)
  exact ⟨hcause, h.info_none hcause⟩

/-- `FetchOutOfBounds` records the program counter, and that is 4096 (R122). -/
theorem recordCoherent_raiseFetchOutOfBounds {s : State} (hpc : s.pc.toNat = 4096) :
    RecordCoherent (raiseFetchOutOfBounds s) where
  faulted_iff := iff_of_true rfl nofun
  not_reserved := nofun
  info_none := nofun
  info_opcode := nofun
  info_fetch _ := ⟨hpc, rfl⟩

/-- `UnimplementedOpcode` records an illegal word, and is raised past it (R121). -/
theorem recordCoherent_raiseUnimplementedOpcode {s : State} {v : Opcode} (hv : decode v = .unimplemented v)
    (hpc : 2 ≤ s.pc.toNat) : RecordCoherent (raiseUnimplementedOpcode v s) where
  faulted_iff := iff_of_true rfl nofun
  not_reserved := nofun
  info_none := nofun
  info_opcode _ := ⟨hv, hpc⟩
  info_fetch := nofun

theorem recordCoherent_of_same {s t : State} (h : RecordCoherent s) (hrec : SameRecord s t) (hpc : t.pc = s.pc) :
    RecordCoherent t := by
  obtain ⟨regs, pc, mem, runState, faultCause, faultInfo⟩ := t
  obtain ⟨rfl, rfl, rfl⟩ := hrec
  obtain rfl := hpc
  exact ⟨h.faulted_iff, h.not_reserved, h.info_none, h.info_opcode, h.info_fetch⟩

/-! ### States that meet the invariant -/

theorem Inv.pcEvenInRange {s : State} (h : Inv s) : PcEvenInRange s := ⟨h.pc_even, h.pc_le⟩

/-- The invariant looks at the program counter and the record, and at the form of memory alone. -/
theorem inv_of_same {s t : State} (hs : Inv s) (hrec : SameRecord s t) (hpc : t.pc = s.pc) (hmem : t.mem.wf = true) : Inv t where
  mem_wf := hmem
  pc_even := hpc ▸ hs.pc_even
  pc_le := hpc ▸ hs.pc_le
  idle_pc h := hpc.trans (hs.idle_pc (hrec.runState.trans h))
  halted_pc h := hpc ▸ hs.halted_pc (hrec.runState.trans h)
  record := recordCoherent_of_same hs.record hrec hpc

/-- Of a running core the invariant asks a clear record. -/
theorem inv_of_running {s : State} (hr : s.runState = .running) (hmem : s.mem.wf = true) (hpc : PcEvenInRange s)
    (hclear : s.faultCause = .none ∧ s.faultInfo = 0) : Inv s where
  mem_wf := hmem
  pc_even := hpc.even
  pc_le := hpc.le
  idle_pc := by simp [hr]
  halted_pc := by simp [hr]
  record := recordCoherent_of_clear (by simp [hr]) hclear.1 hclear.2

theorem inv_reset : Inv State.reset where
  mem_wf := wf_reset
  pc_even := pcEvenInRange_reset.even
  pc_le := pcEvenInRange_reset.le
  idle_pc _ := rfl
  halted_pc := nofun
  record := recordCoherent_of_clear nofun rfl rfl

/-! ### The step -/

/-- No outcome of a step writes memory (20_memory.md section 8). -/
theorem step_mem {s t : State} (h : step s = .next t) : t.mem = s.mem := by
  obtain ⟨-, rfl⟩ | ⟨-, -, rfl⟩ | ⟨_, -, -, -, rfl⟩ | ⟨_, _, _, -, -, -, rfl⟩ | ⟨_, -, -, -, rfl⟩ := step_cases h
  all_goals rfl

/-- An even program counter that no word stands at is 4096 (R44). -/
theorem pc_eq_of_fetch_none {s : State} (hpc : PcEvenInRange s) (hf : fetch s = none) : s.pc.toNat = 4096 := by
  obtain ⟨heven, hle⟩ := hpc
  have hpast := fetch_none_iff.mp hf
  omega

/-- Memory and the program counter are in range whatever the step does; what the invariant asks of the run state and the record is
shown outcome by outcome. -/
theorem step_keeps_inv {s t : State} (hs : Inv s) (h : step s = .next t) : Inv t := by
  have hmem : t.mem.wf = true := step_mem h ▸ hs.mem_wf
  have hpc : PcEvenInRange t := step_keeps_pcEvenInRange hs.pcEvenInRange h
  have hclear (hr : s.runState = .running) : s.faultCause = .none ∧ s.faultInfo = 0 := hs.record.clear (by simp [hr])
  have hpast {v : Opcode} (hf : fetch s = some v) : 2 ≤ (advance s).pc.toNat := by rw [advance_pc, advance_pc_toNat hf]; omega
  obtain ⟨-, rfl⟩ | ⟨-, hf, rfl⟩ | ⟨v, hr, hf, -, rfl⟩ | ⟨v, x, y, hr, -, -, rfl⟩ | ⟨v, -, hf, hv, rfl⟩ := step_cases h
  · exact hs
  · have hend : s.pc.toNat = 4096 := pc_eq_of_fetch_none hs.pcEvenInRange hf
    exact ⟨hmem, hpc.even, hpc.le, nofun, nofun, recordCoherent_raiseFetchOutOfBounds hend⟩
  · obtain ⟨hcause, hinfo⟩ := hclear hr
    exact ⟨hmem, hpc.even, hpc.le, nofun, fun _ => hpast hf, recordCoherent_of_clear nofun hcause hinfo⟩
  · exact inv_of_running hr hmem hpc (hclear hr)
  · exact ⟨hmem, hpc.even, hpc.le, nofun, nofun, recordCoherent_raiseUnimplementedOpcode hv (hpast hf)⟩

/-! ### The host's operations and the actions -/

theorem hostEffect_mem_wf {s : State} (op : HostOp) (h : s.mem.wf = true) : (hostEffect op s).mem.wf = true := by
  cases op with
  | writeMem a b => exact wf_writeByte_addr h a b
  | readMem _ | writeReg _ _ | readReg _ | readPC | readStatus => exact h
  | start => exact (hostStart_mem s).symm ▸ h
  | reset => exact wf_reset

/-- Start begins a run with the record clear, since it does nothing to a faulted core (R131). -/
theorem hostStart_keeps_inv {s : State} (hs : Inv s) : Inv (hostStart s) := by
  rw [hostStart_eq_ite]
  split
  case isTrue => exact hs
  case isFalse hf =>
    have hpc : PcEvenInRange { s with runState := .running } := pcEvenInRange_of_pc_eq hs.pcEvenInRange rfl
    exact inv_of_running rfl hs.mem_wf hpc (hs.record.clear hf)

theorem hostEffect_keeps_inv {s : State} (op : HostOp) (hs : Inv s) : Inv (hostEffect op s) := by
  by_cases hstart : op = .start
  · exact hstart ▸ hostStart_keeps_inv hs
  · by_cases hreset : op = .reset
    · exact hreset ▸ inv_reset
    · exact inv_of_same hs (sameRecord_hostEffect s hstart hreset) (hostEffect_pc s hreset) (hostEffect_mem_wf op hs.mem_wf)

theorem act_keeps_inv {a : Action} {s t : State} (hs : Inv s) (h : act a s = some t) : Inv t := by
  obtain ⟨-, -, hstep⟩ | ⟨op, -, -, rfl⟩ := act_cases h
  · exact step_keeps_inv hs hstep
  · exact hostEffect_keeps_inv op hs

/-! ### `FAULTED` is left only by reset (R126) -/

/-- Start does nothing to a faulted core, and no other operation but Reset writes the record. -/
theorem sameRecord_hostEffect_of_faulted {op : HostOp} {s : State} (hf : s.runState = .faulted) (hreset : op ≠ .reset) :
    SameRecord s (hostEffect op s) := by
  by_cases hstart : op = .start
  · subst hstart
    rw [hostEffect, hostStart_eq_ite, if_pos hf]
    exact .refl s
  · exact sameRecord_hostEffect s hstart hreset

end Sys2Proof.Machine

/-- Settles O39, outcome by outcome of the step. -/
theorem everyStepKeepsTheInvariant : Obligations.EveryStepKeepsTheInvariant := fun _ _ => step_keeps_inv

/-- Settles O38: reset leaves the core idle at the entry point with a clear record. -/
theorem resetMeetsTheInvariant : Obligations.ResetMeetsTheInvariant := inv_reset

/-- Settles O40: an accepted operation leaves its effect, and every effect keeps the invariant. -/
theorem everyHostOperationKeepsTheInvariant : Obligations.EveryHostOperationKeepsTheInvariant := by
  intro op s t r hs h
  obtain ⟨-, rfl, -⟩ := hostAct_accepted h
  exact hostEffect_keeps_inv op hs

/-- Settles O41, by induction on how the state was reached. -/
theorem everyReachableStateMeetsTheInvariant : Obligations.EveryReachableStateMeetsTheInvariant := fun _ h =>
  h.induction inv_reset fun _ _ _ => act_keeps_inv

/-- Settles O34: the core does not step while faulted, and each operation but Reset keeps the record and the program counter. -/
theorem onlyResetLeavesFaulted : Obligations.OnlyResetLeavesFaulted := by
  intro a s t hf h ha
  obtain ⟨-, hr, -⟩ | ⟨op, rfl, -, rfl⟩ := act_cases h
  · cases hf.symm.trans hr
  · have hreset : op ≠ .reset := fun hop => ha (congrArg _ hop)
    obtain ⟨hstate, hcause, hinfo⟩ := sameRecord_hostEffect_of_faulted hf hreset
    exact ⟨hstate.symm.trans hf, hcause.symm, hinfo.symm, hostEffect_pc s hreset⟩

end


section
/-! SUPPORT. The meanings and the cycle around them (40_control.md, 41_alu.md sections 1 and 2, 70_reset_and_hazards.md section 3):
the exact sum from carry and result, the step on a word that decodes, and that every step completes. At the end, the eleven
statements about them. -/

open Sys2Proof Sys2Proof.Machine

namespace Sys2Proof.Machine

/-! ### The adder (R101) -/

/-- The carry counts 256, the wrapped sum the rest. -/
theorem exactSum_eq_carry_and_result (a b : Byte) :
    a.toNat + b.toNat = 256 * (carryByte (exactSum a b)).toNat + (sumByte (exactSum a b)).toNat := by
  have ha : a.toNat < 256 := a.isLt
  have hb : b.toNat < 256 := b.isLt
  rw [carryByte_exactSum, sumByte_toNat]
  split
  case isTrue =>
    have hone : (1 : Byte).toNat = 1 := rfl
    omega
  case isFalse =>
    have hzero : (0 : Byte).toNat = 0 := rfl
    omega

/-- A doubled byte has a carry from 128 on. -/
theorem add_self_exceeds_iff (n : Nat) : 255 < n + n ↔ 128 ≤ n := by omega

/-! ### The step on a word that decodes (R80, R84) -/

theorem step_of_decode {s : State} {v : Opcode} {i : Instr} (hr : s.runState = .running) (hf : fetch s = some v)
    (hv : decode v = .instr i) : step s = exec i (advance s) := by
  rw [step_of_fetch_some hr hf, dispatchWord, hv]

/-- Where an instruction's own word stands at the program counter, the step is that instruction's. -/
theorem step_of_encoded {s : State} {i : Instr} (hr : s.runState = .running) (hin : s.pc.toNat + 1 ≤ 0xFFF)
    (hword : s.mem.readWord s.pc.toNat = encode i) : step s = exec i (advance s) :=
  step_of_decode hr (hword ▸ fetch_in hin) (decode_encode i)

/-! ### Stop states, and that every step completes (R137) -/

theorem step_of_not_running {s : State} (hs : s.runState ≠ .running) : step s = .next s := by
  rw [step, cycle]
  cases hr : s.runState with
  | running => exact absurd hr hs
  | idle | halted | faulted => rfl

theorem step_total (s : State) : ∃ t, step s = .next t := by
  by_cases hr : s.runState = .running
  · exact step_total_of_running hr
  · exact ⟨s, step_of_not_running hr⟩

end Sys2Proof.Machine

/-- Settles O14: of the outcomes of a running core's step only the two faults leave `FAULTED`. -/
theorem faultsArePrecise : Obligations.FaultsArePrecise := by
  intro s t hr h ht
  obtain ⟨hs, -⟩ | ⟨-, -, rfl⟩ | ⟨_, -, -, -, rfl⟩ | ⟨_, _, _, -, -, -, rfl⟩ | ⟨_, -, hf, -, rfl⟩ := step_cases h
  · exact absurd hr hs
  · exact ⟨fun _ => rfl, rfl, .inr ⟨rfl, rfl⟩⟩
  · cases ht
  · cases hr.symm.trans ht
  · exact ⟨fun _ => rfl, rfl, .inl ⟨rfl, advance_pc_toNat hf⟩⟩

/-- Settles O17: the advance past the HALT at 4094 leaves 4096, Start keeps it, and the fetch there is out of bounds. -/
theorem startAfterHaltAtTheTopOfMemoryFaults : Obligations.StartAfterHaltAtTheTopOfMemoryFaults := by
  intro s hr hp hf
  have hend : (advance s).pc.toNat = 4096 := by rw [advance_pc, advance_pc_toNat hf, hp]
  have hstart := hostAct_start_of_idle_or_halted (s := stopHalted (advance s)) (.inr rfl)
  have hfault := step_of_fetch_none (s := { stopHalted (advance s) with runState := .running }) rfl
    (fetch_out (show 0xFFF < (advance s).pc.toNat + 1 by omega))
  have hinfo : (advance s).pc.setWidth 16 = 0x1000 := BitVec.eq_of_toNat_eq (by rw [BitVec.toNat_setWidth, hend]; rfl)
  exact ⟨_, _, _, step_of_fetch_zero hr hf, rfl, hend, hstart, hfault, rfl, rfl, hinfo, rfl⟩

/-- Settles O21: the three ways of sharing are ADD on those registers, and a doubled byte exceeds 255 from 128 on. -/
theorem addOnSharedRegisters : Obligations.AddOnSharedRegisters := by
  refine ⟨fun x s hx => ?flagOperand, fun x s hx => ?doubled, fun s => ?flagDoubled⟩
  case flagOperand =>
    obtain ⟨t, hexec, hsum, hcarry, -⟩ := addWritesTheWrappedSumAndTheCarry x 15 s
    exact ⟨t, hexec, hsum hx, hcarry⟩
  case doubled =>
    obtain ⟨t, hexec, hsum, hcarry, -⟩ := addWritesTheWrappedSumAndTheCarry x x s
    refine ⟨t, hexec, by rw [hsum hx, Nat.two_mul], ?_⟩
    rw [hcarry, if_congr (add_self_exceeds_iff _) rfl rfl]
    split <;> simp [*]
  case flagDoubled =>
    obtain ⟨t, hexec, hcarry, -⟩ := addToTheFlagRegisterKeepsOnlyTheCarry 15 s
    exact ⟨t, hexec, hcarry.trans (if_congr (add_self_exceeds_iff _) rfl rfl)⟩

/-- Settles O22, from the law of the adder: register 15 holds the carry, and register X, which is not 15, the wrapped sum. -/
theorem addCarryAndResultMakeTheExactSum : Obligations.AddCarryAndResultMakeTheExactSum := by
  intro x y s hx
  refine ⟨_, exec_add x y s, ?_⟩
  rw [readReg_flag_after_writes, readReg_result_after_writes hx]
  exact exactSum_eq_carry_and_result _ _

/-- Settles O9: the two bytes are the word the fetch gives, and decoding them is decoding that word. -/
theorem stepRunsTheDecodedInstruction : Obligations.StepRunsTheDecodedInstruction := by
  rintro s i hi lo hr hin rfl rfl hbytes
  obtain ⟨hword, -⟩ := (decodeBytes_cons_cons_eq_ok_iff _ _ _ _ _).mp hbytes
  exact step_of_decode hr (fetch_in hin) hword

/-- Settles O12: outside `RUNNING` the cycle answers the state it was given, and the core's action is disabled. -/
theorem stopStatesHoldAllState : Obligations.StopStatesHoldAllState := fun _ hs =>
  ⟨step_of_not_running hs, act_core_of_not_running hs⟩

/-- Settles O13: a step holds the state or runs the cycle, and each instruction has its meaning. -/
theorem everyStepAndEveryInstructionCompletes : Obligations.EveryStepAndEveryInstructionCompletes := ⟨step_total, exec_total⟩

/-- Settles O16: HALT writes the run state alone. -/
theorem haltFrame : Obligations.HaltFrame := by
  intro s t h
  obtain rfl := Host.Outcome.next.inj ((exec_halt s).symm.trans h)
  exact ⟨stopHalted_readReg s, stopHalted_pc s, fun _ => rfl, stopHalted_faultCause s, stopHalted_faultInfo s⟩

/-- Settles O19: ADD makes two register writes, to X and to 15. -/
theorem addFrame : Obligations.AddFrame := by
  intro x y s t h
  obtain rfl := Host.Outcome.next.inj ((exec_add x y s).symm.trans h)
  exact ⟨fun i hx hflag => readReg_other_after_writes hx hflag _ _ s, rfl, fun _ => rfl, rfl, rfl, rfl⟩

/-- Settles O25: the first ADD leaves the core running at the second's word, with the carry in register 15 and register Z kept. -/
theorem theNextInstructionSeesTheCarry : Obligations.TheNextInstructionSeesTheCarry := by
  intro x y z s hr hin hzx hz hfirst hsecond
  obtain ⟨t, hadd, -, hcarry, -⟩ := addWritesTheWrappedSumAndTheCarry x y (advance s)
  obtain ⟨hkept, -, -, hrun, -⟩ := addFrame x y (advance s) t hadd
  have hrun : t.runState = .running := hrun.trans hr
  have hstep : step s = .next t := (step_of_encoded hr (by omega) hfirst).trans hadd
  have hpc : t.pc.toNat = s.pc.toNat + 2 := (pc_of_step_still_running hr hstep hrun).2
  have hword : t.mem.readWord t.pc.toNat = encode (.add z 15) := by rw [step_mem hstep, hpc, hsecond]
  obtain ⟨u, hadd', hsum, -⟩ := addWritesTheWrappedSumAndTheCarry z 15 (advance t)
  refine ⟨t, u, hstep, (step_of_encoded hrun (by omega) hword).trans hadd', ?_⟩
  rw [hsum hz, advance_readReg, advance_readReg, hkept z hzx hz, hcarry, apply_ite BitVec.toNat]
  rfl

/-- Settles O23: both values written are functions of the two operands. -/
theorem addDependsOnlyOnItsTwoOperands : Obligations.AddDependsOnlyOnItsTwoOperands := by
  intro x y s s' hx hy
  refine ⟨_, _, exec_add x y s, exec_add x y s', ?result, ?carry⟩
  case result => simp [hx, hy]
  case carry => rw [readReg_flag_after_writes, readReg_flag_after_writes, hx, hy]

end


section
/-! SUPPORT. Memory as the fetch and the run see it (20_memory.md sections 1, 3 and 8): canonical lists that read alike, the word
that a store at the program counter makes the next fetch give, and what a run of any length keeps. At the end, the five statements
about them. -/

open Sys2Proof Sys2Proof.Machine

namespace Sys2Proof.Machine

/-! ### Canonical lists that read alike -/

/-- The first address of a canonical list is where it first reads as something listed, so a list that reads alike below the end of
memory starts no later. -/
theorem le_head_of_reads_alike {lo lo' a : Nat} {b : Byte} {m m' : Memory} (h : Memory.wfFrom lo ((a, b) :: m) = true)
    (h' : Memory.wfFrom lo' m' = true) (hread : ∀ c, c < 4096 → Memory.readByte ((a, b) :: m) c = m'.readByte c) : lo' ≤ a := by
  obtain ⟨-, ha, hb, -⟩ := wfFrom_cons.mp h
  by_contra hlt
  have hzero : Memory.readByte ((a, b) :: m) a = 0 := (hread a ha).trans (readByte_below h' (by omega))
  exact hb (by simpa [readByte_cons] using hzero)

/-- A canonical list that reads 0 everywhere is empty. -/
theorem not_reads_alike_nil {lo a : Nat} {b : Byte} {m : Memory} (h : Memory.wfFrom lo ((a, b) :: m) = true) :
    ¬ ∀ c, c < 4096 → Memory.readByte ((a, b) :: m) c = Memory.readByte [] c := by
  intro hread
  obtain ⟨-, ha, -, -⟩ := wfFrom_cons.mp h
  have hlate : a + 1 ≤ a := le_head_of_reads_alike (lo' := a + 1) h rfl hread
  omega

/-- Behind a head they share, lists that read alike still do: at the head's address both tails read as unlisted. -/
theorem tails_read_alike {a : Nat} {b : Byte} {m m' : Memory} (h : Memory.wfFrom (a + 1) m = true)
    (h' : Memory.wfFrom (a + 1) m' = true)
    (hread : ∀ c, c < 4096 → Memory.readByte ((a, b) :: m) c = Memory.readByte ((a, b) :: m') c) :
    ∀ c, c < 4096 → m.readByte c = m'.readByte c := by
  intro c hc
  by_cases hca : c = a
  · rw [readByte_below h (by omega), readByte_below h' (by omega)]
  · simpa only [readByte_cons, if_neg hca] using hread c hc

/-- By induction on the lists: the heads agree in address and in byte, and the tails read alike. -/
theorem eq_of_reads_alike {lo : Nat} {m m' : Memory} (h : Memory.wfFrom lo m = true) (h' : Memory.wfFrom lo m' = true)
    (hread : ∀ c, c < 4096 → m.readByte c = m'.readByte c) : m = m' := by
  induction m generalizing lo m' with
  | nil =>
    cases m' with
    | nil => rfl
    | cons e m' => exact absurd (fun c hc => (hread c hc).symm) (not_reads_alike_nil h')
  | cons e m ih =>
    cases m' with
    | nil => exact absurd hread (not_reads_alike_nil h)
    | cons e' m' =>
      obtain ⟨a, b⟩ := e
      obtain ⟨a', b'⟩ := e'
      obtain ⟨-, ha, hb, htail⟩ := wfFrom_cons.mp h
      obtain ⟨-, ha', hb', htail'⟩ := wfFrom_cons.mp h'
      have hle : a' ≤ a := le_head_of_reads_alike h (wfFrom_cons.mpr ⟨Nat.le_refl a', ha', hb', htail'⟩) hread
      have hge : a ≤ a' := le_head_of_reads_alike h' (wfFrom_cons.mpr ⟨Nat.le_refl a, ha, hb, htail⟩) fun c hc => (hread c hc).symm
      obtain rfl : a = a' := Nat.le_antisymm hge hle
      obtain rfl : b = b' := by simpa [readByte_cons] using hread a ha
      rw [ih htail htail' (tails_read_alike htail htail' hread)]

/-! ### A word stored where the next step fetches (R45, R53) -/

/-- The fetch gives the word stored last at the program counter. -/
theorem fetch_of_writeWord {s : State} {m : Memory} {v : Opcode} (hm : m.wf = true) (hin : s.pc.toNat + 1 ≤ 0xFFF)
    (hmem : s.mem = m.writeWord s.pc.toNat v) : fetch s = some v :=
  fetch_some_iff.mpr ⟨hin, by rw [hmem, readWord_writeWord hm (by omega)]⟩

/-- Where a word is placed, a whole word stands. -/
theorem placePc_in_bounds (s : State) : (placePc s).toNat + 1 ≤ 0xFFF := by
  unfold placePc
  split
  case isTrue hin => simpa [State.fetchInBounds] using hin
  case isFalse => decide

theorem fetch_placeWord {s : State} (hwf : s.mem.wf = true) (v : Opcode) : fetch (placeWord v s) = some v :=
  fetch_of_writeWord hwf (placePc_in_bounds s) (placeWord_mem v s)

/-- The host's numbering and the decoder on words agree: the bytes laid out are the halves of the table word. -/
theorem decode_tableOpcode {nbits w : Nat} {i : Instr} (h : decodeTableWord nbits w = some i) :
    decode (tableOpcode nbits w) = .instr i := by
  unfold decodeTableWord at h
  split at h
  next j rest hbytes =>
    obtain rfl := Option.some.inj h
    simpa using ((decodeBytes_cons_cons_eq_ok_iff _ _ _ _ _).mp hbytes).1
  next => cases h

/-! ### Runs of any length -/

theorem runSteps_of_not_running (k : Nat) {s : State} (hs : s.runState ≠ .running) : runSteps k s = .next s := by
  induction k with
  | zero => rfl
  | succ k ih => rw [runSteps_succ k (step_of_not_running hs), ih]

/-- A run that answers a running state was running when it began: a stop state is held. -/
theorem running_of_runSteps {k : Nat} {s t : State} (h : runSteps k s = .next t) (ht : t.runState = .running) :
    s.runState = .running := by
  by_contra hs
  obtain rfl := Host.Outcome.next.inj ((runSteps_of_not_running k hs).symm.trans h)
  exact hs ht

/-- Every step completes and writes no memory, so any number of them does. -/
theorem runSteps_keeps_mem (k : Nat) (s : State) : ∃ t, runSteps k s = .next t ∧ t.mem = s.mem := by
  induction k generalizing s with
  | zero => exact ⟨s, rfl, rfl⟩
  | succ k ih =>
    obtain ⟨u, hstep⟩ := step_total s
    obtain ⟨t, hrun, hmem⟩ := ih u
    exact ⟨t, (runSteps_succ k hstep).trans hrun, hmem.trans (step_mem hstep)⟩

theorem runSteps_pc {k : Nat} {s t : State} (h : runSteps k s = .next t) (ht : t.runState = .running) :
    t.pc.toNat = s.pc.toNat + 2 * k := by
  induction k generalizing s with
  | zero =>
    obtain rfl := Host.Outcome.next.inj h
    rfl
  | succ k ih =>
    have hr : s.runState = .running := running_of_runSteps h ht
    obtain ⟨u, hstep⟩ := step_total_of_running hr
    have hrest : runSteps k u = .next t := (runSteps_succ k hstep).symm.trans h
    have hpc : u.pc.toNat = s.pc.toNat + 2 := (pc_of_step_still_running hr hstep (running_of_runSteps hrest ht)).2
    rw [ih hrest, hpc]
    omega

end Sys2Proof.Machine

/-- Settles O35: the host's two writes store the word at the program counter, and Start keeps both memory and the counter. -/
theorem aWordTheHostStoresIsTheWordFetched : Obligations.AWordTheHostStoresIsTheWordFetched := by
  intro s a a' w hwf hs ha' hpc
  have hstopped : s.runState ≠ .running := by obtain h | h := hs <;> simp [h]
  have hhigh := hostAct_of_not_running hstopped (.writeMem a (w.extractLsb' 8 8))
  have hlow := hostAct_of_not_running (s := hostWriteMem a (w.extractLsb' 8 8) s) hstopped (.writeMem a' (w.extractLsb' 0 8))
  have hin : s.pc.toNat + 1 ≤ 0xFFF := by
    have := addr_lt_memSize a'
    omega
  refine ⟨_, _, _, hhigh, hlow, hostAct_start_of_idle_or_halted hs, rfl, fetch_of_writeWord hwf hin ?stored⟩
  case stored =>
    show (s.mem.writeByte a.toNat (highByte w)).writeByte a'.toNat (lowByte w) = s.mem.writeWord s.pc.toNat w
    rw [ha', hpc, Memory.writeWord]

/-- Settles O36, by induction on the number of steps. -/
theorem noRunChangesMemory : Obligations.NoRunChangesMemory := by
  intro k s
  obtain ⟨t, hrun, hmem⟩ := runSteps_keeps_mem k s
  exact ⟨t, hrun, hmem, fun a => by rw [hmem]⟩

/-- Settles O37, by induction on the two lists. -/
theorem canonicalMemoriesThatReadAlikeAreEqual : Obligations.CanonicalMemoriesThatReadAlikeAreEqual :=
  ⟨fun _ _ => eq_of_reads_alike, fun _ _ => readByte_beyond⟩

/-- Settles O42, by induction on the number of steps: each that leaves the run going has advanced the program counter by 2. -/
theorem pcAfterKStepsOfARun : Obligations.PcAfterKStepsOfARun := fun _ _ _ => runSteps_pc

/-- Settles O44: the placed word is the one fetched, and it decodes to the instruction. -/
theorem aPlacedTableWordRunsNext : Obligations.APlacedTableWordRunsNext := by
  intro s nbits w i hwf hi
  have hf : fetch (s.withFetchWord nbits w) = some (tableOpcode nbits w) := fetch_placeWord hwf _
  exact ⟨step_of_decode rfl hf (decode_tableOpcode hi), fun _ => rfl⟩

end
